-- ==== Sys2Proof/Word.lean ====
section
/-! DEFINITION. The two widths of the machine: 8-bit data and 16-bit addresses (00_scope.md R5). -/

namespace Sys2Proof

/-- A register or memory byte: 8 bits (R5). -/
abbrev Byte := BitVec 8

/-- An address and the program counter: 16 bits (R5). -/
abbrev Addr := BitVec 16

end Sys2Proof
end

