-- ==== Sys2Proof/Config.lean ====
section
/-! DEFINITION. What one machine fixes and the spec leaves open: the six named parameters of 00_scope.md R6, with the
defaults the spec decided. No parameter is a free value: each has a default, and the spec knows no unspecified value
(93_implementation_defined.md, end of part 1). -/

namespace Sys2Proof

/-- `WORD_WRAP_AT_TOP` (R6, D6): what a two-byte access at 0xFFFF does. -/
inductive TopOfMemory where
  | wrap   -- the second byte is at 0x0000
  | fault  -- the access is a bounds fault
  deriving DecidableEq, Repr

/-- `RESET_CONVENTION` (R6, D11): the two states of 10_state.md R31 and R32. -/
inductive ResetConvention where
  | powerOn
  | zero
  deriving DecidableEq, Repr

/-- The six parameters of R6, in its order. -/
structure Config where
  implementedOpcodes : List Byte
  wordWrapAtTop : TopOfMemory
  zpPointerWrap : Bool
  jmpIndPageWrap : Bool
  resetConvention : ResetConvention
  pReset : Byte
  deriving DecidableEq, Repr

/-- The bytes of LDA, LDX, LDY in 30_encoding.md R77, row by row. -/
def Config.loadsOpcodes : List Byte :=
  [ 0xA9#8, 0xA5#8, 0xB5#8, 0xAD#8, 0xBD#8, 0xB9#8, 0xA1#8, 0xB1#8,
    0xA2#8, 0xA6#8, 0xB6#8, 0xAE#8, 0xBE#8, 0xA0#8, 0xA4#8, 0xB4#8,
    0xAC#8, 0xBC#8 ]

/-- The bytes of STA, STX, STY in 30_encoding.md R77, row by row. -/
def Config.storesOpcodes : List Byte :=
  [ 0x85#8, 0x95#8, 0x8D#8, 0x9D#8, 0x99#8, 0x81#8, 0x91#8, 0x86#8,
    0x96#8, 0x8E#8, 0x84#8, 0x94#8, 0x8C#8 ]

/-- The bytes of ADC, CMP, CPX, CPY in 30_encoding.md R77, row by row. -/
def Config.arithmeticOpcodes : List Byte :=
  [ 0x69#8, 0x65#8, 0x75#8, 0x6D#8, 0x7D#8, 0x79#8, 0x61#8, 0x71#8,
    0xC9#8, 0xC5#8, 0xD5#8, 0xCD#8, 0xDD#8, 0xD9#8, 0xC1#8, 0xD1#8,
    0xE0#8, 0xE4#8, 0xEC#8, 0xC0#8, 0xC4#8, 0xCC#8 ]

/-- The bytes of INX, INY, DEX, DEY, TAX, JMP, BNE, HLT in 30_encoding.md R77, row by row. -/
def Config.restOpcodes : List Byte :=
  [ 0xE8#8, 0xC8#8, 0xCA#8, 0x88#8, 0xAA#8, 0x6C#8, 0xD0#8, 0x00#8 ]

/-- The 61 bytes of R77, the default of `IMPLEMENTED_OPCODES` (DESIGN CHOICE of the spec, D1; log 2; unsafe: the real
core may fault on some of the 44 `family` rows). -/
def Config.tableOpcodes : List Byte :=
  Config.loadsOpcodes ++ Config.storesOpcodes ++ Config.arithmeticOpcodes ++ Config.restOpcodes

/-- The 17 bytes whose ground is `named` in R76: the narrowest set the source supports (R78). -/
def Config.namedOpcodes : List Byte :=
  [ 0x00#8, 0x69#8, 0x6C#8, 0x88#8, 0xA0#8, 0xA2#8, 0xA9#8, 0xAA#8,
    0xB1#8, 0xB9#8, 0xBC#8, 0xBD#8, 0xBE#8, 0xC8#8, 0xCA#8, 0xD0#8,
    0xE8#8 ]

/-- The defaults of R6. -/
def Config.specDefault : Config where
  implementedOpcodes := Config.tableOpcodes
  wordWrapAtTop := .wrap
  zpPointerWrap := false
  jmpIndPageWrap := false
  resetConvention := .powerOn
  pReset := 0x20#8

end Sys2Proof
end

