-- ==== Sys2Proof/Syntax.lean ====
section
/-! DEFINITION. The instruction set as syntax: 18 mnemonics, 12 addressing modes, 61 instructions, one constructor for
each row of 30_encoding.md R76 with the operand that row carries (R72: none, one byte, or one 16-bit word). -/

namespace Sys2Proof

/-- The 18 mnemonics of R77, in its order. -/
inductive Mnemonic where
  | lda | ldx | ldy | sta | stx | sty | adc | cmp | cpx | cpy
  | inx | iny | dex | dey | tax | jmp | bne | hlt
  deriving DecidableEq, Repr

/-- The 12 addressing modes of R72, in the order of R77. -/
inductive Mode where
  | implied | immediate | zeroPage | zeroPageX | zeroPageY | absolute
  | absoluteX | absoluteY | indirect | indirectX | indirectY | relative
  deriving DecidableEq, Repr

/-- The number of operand bytes of a mode: 0 for Implied, 2 for the Absolute modes and Indirect, 1 otherwise (R72). -/
def Mode.size : Mode → Nat
  | .implied => 0
  | .absolute | .absoluteX | .absoluteY | .indirect => 2
  | .immediate | .relative | .zeroPage | .zeroPageX | .zeroPageY | .indirectX | .indirectY => 1

/-- What follows the opcode byte: the three formats F1, F2 and F3 of R70. -/
inductive Operand where
  | none
  | byte (d : Byte)
  | word (a : Addr)
  deriving DecidableEq, Repr

/-- The instructions, one constructor for each row of R76. `d` is a one-byte operand, `a` a 16-bit one. -/
inductive Instr where
  | ldaImm (d : Byte)     -- A9  LDA #$nn
  | ldaZp (d : Byte)      -- A5  LDA $nn
  | ldaZpX (d : Byte)     -- B5  LDA $nn,X
  | ldaAbs (a : Addr)     -- AD  LDA $nnnn
  | ldaAbsX (a : Addr)    -- BD  LDA $nnnn,X
  | ldaAbsY (a : Addr)    -- B9  LDA $nnnn,Y
  | ldaIndX (d : Byte)    -- A1  LDA ($nn,X)
  | ldaIndY (d : Byte)    -- B1  LDA ($nn),Y
  | ldxImm (d : Byte)     -- A2  LDX #$nn
  | ldxZp (d : Byte)      -- A6  LDX $nn
  | ldxZpY (d : Byte)     -- B6  LDX $nn,Y
  | ldxAbs (a : Addr)     -- AE  LDX $nnnn
  | ldxAbsY (a : Addr)    -- BE  LDX $nnnn,Y
  | ldyImm (d : Byte)     -- A0  LDY #$nn
  | ldyZp (d : Byte)      -- A4  LDY $nn
  | ldyZpX (d : Byte)     -- B4  LDY $nn,X
  | ldyAbs (a : Addr)     -- AC  LDY $nnnn
  | ldyAbsX (a : Addr)    -- BC  LDY $nnnn,X
  | staZp (d : Byte)      -- 85  STA $nn
  | staZpX (d : Byte)     -- 95  STA $nn,X
  | staAbs (a : Addr)     -- 8D  STA $nnnn
  | staAbsX (a : Addr)    -- 9D  STA $nnnn,X
  | staAbsY (a : Addr)    -- 99  STA $nnnn,Y
  | staIndX (d : Byte)    -- 81  STA ($nn,X)
  | staIndY (d : Byte)    -- 91  STA ($nn),Y
  | stxZp (d : Byte)      -- 86  STX $nn
  | stxZpY (d : Byte)     -- 96  STX $nn,Y
  | stxAbs (a : Addr)     -- 8E  STX $nnnn
  | styZp (d : Byte)      -- 84  STY $nn
  | styZpX (d : Byte)     -- 94  STY $nn,X
  | styAbs (a : Addr)     -- 8C  STY $nnnn
  | adcImm (d : Byte)     -- 69  ADC #$nn
  | adcZp (d : Byte)      -- 65  ADC $nn
  | adcZpX (d : Byte)     -- 75  ADC $nn,X
  | adcAbs (a : Addr)     -- 6D  ADC $nnnn
  | adcAbsX (a : Addr)    -- 7D  ADC $nnnn,X
  | adcAbsY (a : Addr)    -- 79  ADC $nnnn,Y
  | adcIndX (d : Byte)    -- 61  ADC ($nn,X)
  | adcIndY (d : Byte)    -- 71  ADC ($nn),Y
  | cmpImm (d : Byte)     -- C9  CMP #$nn
  | cmpZp (d : Byte)      -- C5  CMP $nn
  | cmpZpX (d : Byte)     -- D5  CMP $nn,X
  | cmpAbs (a : Addr)     -- CD  CMP $nnnn
  | cmpAbsX (a : Addr)    -- DD  CMP $nnnn,X
  | cmpAbsY (a : Addr)    -- D9  CMP $nnnn,Y
  | cmpIndX (d : Byte)    -- C1  CMP ($nn,X)
  | cmpIndY (d : Byte)    -- D1  CMP ($nn),Y
  | cpxImm (d : Byte)     -- E0  CPX #$nn
  | cpxZp (d : Byte)      -- E4  CPX $nn
  | cpxAbs (a : Addr)     -- EC  CPX $nnnn
  | cpyImm (d : Byte)     -- C0  CPY #$nn
  | cpyZp (d : Byte)      -- C4  CPY $nn
  | cpyAbs (a : Addr)     -- CC  CPY $nnnn
  | inx                   -- E8  INX
  | iny                   -- C8  INY
  | dex                   -- CA  DEX
  | dey                   -- 88  DEY
  | tax                   -- AA  TAX
  | jmp (a : Addr)        -- 6C  JMP ($nnnn)
  | bne (d : Byte)        -- D0  BNE rel
  | hlt                   -- 00  HLT
  deriving DecidableEq, Repr

/-- The mnemonic, the mode and the operand an instruction stands for (R77). -/
def Instr.parts : Instr → Mnemonic × Mode × Operand
  | .ldaImm d => (.lda, .immediate, .byte d)
  | .ldaZp d => (.lda, .zeroPage, .byte d)
  | .ldaZpX d => (.lda, .zeroPageX, .byte d)
  | .ldaAbs a => (.lda, .absolute, .word a)
  | .ldaAbsX a => (.lda, .absoluteX, .word a)
  | .ldaAbsY a => (.lda, .absoluteY, .word a)
  | .ldaIndX d => (.lda, .indirectX, .byte d)
  | .ldaIndY d => (.lda, .indirectY, .byte d)
  | .ldxImm d => (.ldx, .immediate, .byte d)
  | .ldxZp d => (.ldx, .zeroPage, .byte d)
  | .ldxZpY d => (.ldx, .zeroPageY, .byte d)
  | .ldxAbs a => (.ldx, .absolute, .word a)
  | .ldxAbsY a => (.ldx, .absoluteY, .word a)
  | .ldyImm d => (.ldy, .immediate, .byte d)
  | .ldyZp d => (.ldy, .zeroPage, .byte d)
  | .ldyZpX d => (.ldy, .zeroPageX, .byte d)
  | .ldyAbs a => (.ldy, .absolute, .word a)
  | .ldyAbsX a => (.ldy, .absoluteX, .word a)
  | .staZp d => (.sta, .zeroPage, .byte d)
  | .staZpX d => (.sta, .zeroPageX, .byte d)
  | .staAbs a => (.sta, .absolute, .word a)
  | .staAbsX a => (.sta, .absoluteX, .word a)
  | .staAbsY a => (.sta, .absoluteY, .word a)
  | .staIndX d => (.sta, .indirectX, .byte d)
  | .staIndY d => (.sta, .indirectY, .byte d)
  | .stxZp d => (.stx, .zeroPage, .byte d)
  | .stxZpY d => (.stx, .zeroPageY, .byte d)
  | .stxAbs a => (.stx, .absolute, .word a)
  | .styZp d => (.sty, .zeroPage, .byte d)
  | .styZpX d => (.sty, .zeroPageX, .byte d)
  | .styAbs a => (.sty, .absolute, .word a)
  | .adcImm d => (.adc, .immediate, .byte d)
  | .adcZp d => (.adc, .zeroPage, .byte d)
  | .adcZpX d => (.adc, .zeroPageX, .byte d)
  | .adcAbs a => (.adc, .absolute, .word a)
  | .adcAbsX a => (.adc, .absoluteX, .word a)
  | .adcAbsY a => (.adc, .absoluteY, .word a)
  | .adcIndX d => (.adc, .indirectX, .byte d)
  | .adcIndY d => (.adc, .indirectY, .byte d)
  | .cmpImm d => (.cmp, .immediate, .byte d)
  | .cmpZp d => (.cmp, .zeroPage, .byte d)
  | .cmpZpX d => (.cmp, .zeroPageX, .byte d)
  | .cmpAbs a => (.cmp, .absolute, .word a)
  | .cmpAbsX a => (.cmp, .absoluteX, .word a)
  | .cmpAbsY a => (.cmp, .absoluteY, .word a)
  | .cmpIndX d => (.cmp, .indirectX, .byte d)
  | .cmpIndY d => (.cmp, .indirectY, .byte d)
  | .cpxImm d => (.cpx, .immediate, .byte d)
  | .cpxZp d => (.cpx, .zeroPage, .byte d)
  | .cpxAbs a => (.cpx, .absolute, .word a)
  | .cpyImm d => (.cpy, .immediate, .byte d)
  | .cpyZp d => (.cpy, .zeroPage, .byte d)
  | .cpyAbs a => (.cpy, .absolute, .word a)
  | .inx => (.inx, .implied, .none)
  | .iny => (.iny, .implied, .none)
  | .dex => (.dex, .implied, .none)
  | .dey => (.dey, .implied, .none)
  | .tax => (.tax, .implied, .none)
  | .jmp a => (.jmp, .indirect, .word a)
  | .bne d => (.bne, .relative, .byte d)
  | .hlt => (.hlt, .implied, .none)

/-- The mnemonic of an instruction. -/
def Instr.mnemonic (i : Instr) : Mnemonic := i.parts.1

/-- The addressing mode of an instruction. -/
def Instr.mode (i : Instr) : Mode := i.parts.2.1

/-- The operand of an instruction. -/
def Instr.operand (i : Instr) : Operand := i.parts.2.2

/-- The length of an instruction in bytes: 1 + size(mode) (R73). -/
def Instr.length (i : Instr) : Nat := 1 + i.mode.size

end Sys2Proof
end

