-- ==== Sys2Proof/WellFormed.lean ====
section
/-! DEFINITION. Which mnemonic, mode and operand value together are an instruction. A `RawInstr` is what an assembler line
names; `RawInstr.wf` holds the two checks of 30_encoding.md: the pair stands in R77, and the operand fits the mode's
operand bytes (R72). Every `Instr` passes both, since its constructors carry operands of the right width (R80: no operand
value is illegal). -/

namespace Sys2Proof

/-- The modes each mnemonic has: the rows of R77. -/
def Mnemonic.modes : Mnemonic → List Mode
  | .lda => [.immediate, .zeroPage, .zeroPageX, .absolute, .absoluteX, .absoluteY, .indirectX, .indirectY]
  | .ldx => [.immediate, .zeroPage, .zeroPageY, .absolute, .absoluteY]
  | .ldy => [.immediate, .zeroPage, .zeroPageX, .absolute, .absoluteX]
  | .sta => [.zeroPage, .zeroPageX, .absolute, .absoluteX, .absoluteY, .indirectX, .indirectY]
  | .stx => [.zeroPage, .zeroPageY, .absolute]
  | .sty => [.zeroPage, .zeroPageX, .absolute]
  | .adc => [.immediate, .zeroPage, .zeroPageX, .absolute, .absoluteX, .absoluteY, .indirectX, .indirectY]
  | .cmp => [.immediate, .zeroPage, .zeroPageX, .absolute, .absoluteX, .absoluteY, .indirectX, .indirectY]
  | .cpx => [.immediate, .zeroPage, .absolute]
  | .cpy => [.immediate, .zeroPage, .absolute]
  | .inx => [.implied]
  | .iny => [.implied]
  | .dex => [.implied]
  | .dey => [.implied]
  | .tax => [.implied]
  | .jmp => [.indirect]
  | .bne => [.relative]
  | .hlt => [.implied]

/-- A mnemonic, a mode and an operand value, as an assembler line gives them (R81). -/
structure RawInstr where
  mnemonic : Mnemonic
  mode : Mode
  operand : Nat
  deriving DecidableEq, Repr

/-- The pair of mnemonic and mode exists in R77. -/
def RawInstr.pairExists (r : RawInstr) : Bool := r.mnemonic.modes.contains r.mode

/-- The operand fits the operand bytes of the mode (R72); Implied has none, so its operand is 0. -/
def RawInstr.operandFits (r : RawInstr) : Bool := r.operand < 256 ^ r.mode.size

/-- A well-formed assembler line. -/
def RawInstr.wf (r : RawInstr) : Bool := r.pairExists && r.operandFits

/-- The value of an operand. -/
def Operand.value : Operand → Nat
  | .none => 0
  | .byte d => d.toNat
  | .word a => a.toNat

/-- The assembler line of an instruction. -/
def Instr.raw (i : Instr) : RawInstr := ⟨i.mnemonic, i.mode, i.operand.value⟩

/-- A well-formed instruction. -/
def Instr.wf (i : Instr) : Bool := i.raw.wf

end Sys2Proof
end

