-- ==== Sys2Proof/Decode.lean ====
section
/-! DEFINITION. The `instruction_decoder` block: the opcode table of 30_encoding.md R76 as a list of rows, the decoder
from bytes (total, rejecting by name), the encoder, and the byte-order helpers. PRESUMED (general knowledge in the spec
itself, log 3 and 4): the byte values and the base cycle counts, which the source gives only by reference (R75). -/

namespace Sys2Proof

/-! ### Byte order (20_memory.md R44, R51: little-endian) -/

/-- `lo(a)`, bits 7 to 0 (00_scope.md R8). -/
def loByte (a : Addr) : Byte := a.extractLsb' 0 8

/-- `hi(a)`, bits 15 to 8 (00_scope.md R8). -/
def hiByte (a : Addr) : Byte := a.extractLsb' 8 8

/-- The 16-bit value `high ++ low` of two bytes, the low one first (R44, R74). -/
def joinBytes (low high : Byte) : Addr := high ++ low

/-! ### The opcode table (R76) -/

/-- One row of R76: the triple `(handler, mode, base cycles)` keyed by the raw opcode byte (R71). -/
structure OpcodeRow where
  byte : Byte
  mnemonic : Mnemonic
  mode : Mode
  base : Nat
  deriving DecidableEq, Repr

/-- The rows of R76 with bytes 0x00 to 0x7F. -/
def opcodeRows00 : List OpcodeRow :=
  [ ⟨0x00, .hlt, .implied, 7⟩,
    ⟨0x61, .adc, .indirectX, 6⟩,
    ⟨0x65, .adc, .zeroPage, 3⟩,
    ⟨0x69, .adc, .immediate, 2⟩,
    ⟨0x6C, .jmp, .indirect, 5⟩,
    ⟨0x6D, .adc, .absolute, 4⟩,
    ⟨0x71, .adc, .indirectY, 5⟩,
    ⟨0x75, .adc, .zeroPageX, 4⟩,
    ⟨0x79, .adc, .absoluteY, 4⟩,
    ⟨0x7D, .adc, .absoluteX, 4⟩ ]

/-- The rows of R76 with bytes 0x80 to 0x9F. -/
def opcodeRows80 : List OpcodeRow :=
  [ ⟨0x81, .sta, .indirectX, 6⟩,
    ⟨0x84, .sty, .zeroPage, 3⟩,
    ⟨0x85, .sta, .zeroPage, 3⟩,
    ⟨0x86, .stx, .zeroPage, 3⟩,
    ⟨0x88, .dey, .implied, 2⟩,
    ⟨0x8C, .sty, .absolute, 4⟩,
    ⟨0x8D, .sta, .absolute, 4⟩,
    ⟨0x8E, .stx, .absolute, 4⟩,
    ⟨0x91, .sta, .indirectY, 6⟩,
    ⟨0x94, .sty, .zeroPageX, 4⟩,
    ⟨0x95, .sta, .zeroPageX, 4⟩,
    ⟨0x96, .stx, .zeroPageY, 4⟩,
    ⟨0x99, .sta, .absoluteY, 5⟩,
    ⟨0x9D, .sta, .absoluteX, 5⟩ ]

/-- The rows of R76 with bytes 0xA0 to 0xBF. -/
def opcodeRowsA0 : List OpcodeRow :=
  [ ⟨0xA0, .ldy, .immediate, 2⟩,
    ⟨0xA1, .lda, .indirectX, 6⟩,
    ⟨0xA2, .ldx, .immediate, 2⟩,
    ⟨0xA4, .ldy, .zeroPage, 3⟩,
    ⟨0xA5, .lda, .zeroPage, 3⟩,
    ⟨0xA6, .ldx, .zeroPage, 3⟩,
    ⟨0xA9, .lda, .immediate, 2⟩,
    ⟨0xAA, .tax, .implied, 2⟩,
    ⟨0xAC, .ldy, .absolute, 4⟩,
    ⟨0xAD, .lda, .absolute, 4⟩,
    ⟨0xAE, .ldx, .absolute, 4⟩,
    ⟨0xB1, .lda, .indirectY, 5⟩,
    ⟨0xB4, .ldy, .zeroPageX, 4⟩,
    ⟨0xB5, .lda, .zeroPageX, 4⟩,
    ⟨0xB6, .ldx, .zeroPageY, 4⟩,
    ⟨0xB9, .lda, .absoluteY, 4⟩,
    ⟨0xBC, .ldy, .absoluteX, 4⟩,
    ⟨0xBD, .lda, .absoluteX, 4⟩,
    ⟨0xBE, .ldx, .absoluteY, 4⟩ ]

/-- The rows of R76 with bytes 0xC0 to 0xFF. -/
def opcodeRowsC0 : List OpcodeRow :=
  [ ⟨0xC0, .cpy, .immediate, 2⟩,
    ⟨0xC1, .cmp, .indirectX, 6⟩,
    ⟨0xC4, .cpy, .zeroPage, 3⟩,
    ⟨0xC5, .cmp, .zeroPage, 3⟩,
    ⟨0xC8, .iny, .implied, 2⟩,
    ⟨0xC9, .cmp, .immediate, 2⟩,
    ⟨0xCA, .dex, .implied, 2⟩,
    ⟨0xCC, .cpy, .absolute, 4⟩,
    ⟨0xCD, .cmp, .absolute, 4⟩,
    ⟨0xD0, .bne, .relative, 2⟩,
    ⟨0xD1, .cmp, .indirectY, 5⟩,
    ⟨0xD5, .cmp, .zeroPageX, 4⟩,
    ⟨0xD9, .cmp, .absoluteY, 4⟩,
    ⟨0xDD, .cmp, .absoluteX, 4⟩,
    ⟨0xE0, .cpx, .immediate, 2⟩,
    ⟨0xE4, .cpx, .zeroPage, 3⟩,
    ⟨0xE8, .inx, .implied, 2⟩,
    ⟨0xEC, .cpx, .absolute, 4⟩ ]

/-- The complete table of R76: 61 rows in byte order. -/
def opcodeTable : List OpcodeRow := opcodeRows00 ++ opcodeRows80 ++ opcodeRowsA0 ++ opcodeRowsC0

/-- `decode(byte)` of R71: a lookup of the whole byte, absent for the 195 illegal bytes (R79). -/
def decodeOpcode (op : Byte) : Option OpcodeRow := opcodeTable.find? (fun row => row.byte == op)

/-! ### The decoder -/

/-- Why bytes are rejected. -/
inductive DecodeError where
  /-- There is no byte at all. -/
  | noBytes
  /-- The byte has no row in R76 (R79). -/
  | unsupportedOpcode (op : Byte)
  /-- Fewer operand bytes follow the opcode than its mode takes (R73). A fetch from memory never ends so. -/
  | truncated (op : Byte)
  deriving DecidableEq, Repr

/-- The instruction of a mnemonic and mode with operand bytes `low` and `high` (R74), where the pair exists (R77). -/
def assemble (m : Mnemonic) (mode : Mode) (low high : Byte) : Option Instr :=
  match m with
  | .lda =>
    match mode with
    | .immediate => some (.ldaImm low)
    | .zeroPage => some (.ldaZp low)
    | .zeroPageX => some (.ldaZpX low)
    | .absolute => some (.ldaAbs (joinBytes low high))
    | .absoluteX => some (.ldaAbsX (joinBytes low high))
    | .absoluteY => some (.ldaAbsY (joinBytes low high))
    | .indirectX => some (.ldaIndX low)
    | .indirectY => some (.ldaIndY low)
    | _ => none
  | .ldx =>
    match mode with
    | .immediate => some (.ldxImm low)
    | .zeroPage => some (.ldxZp low)
    | .zeroPageY => some (.ldxZpY low)
    | .absolute => some (.ldxAbs (joinBytes low high))
    | .absoluteY => some (.ldxAbsY (joinBytes low high))
    | _ => none
  | .ldy =>
    match mode with
    | .immediate => some (.ldyImm low)
    | .zeroPage => some (.ldyZp low)
    | .zeroPageX => some (.ldyZpX low)
    | .absolute => some (.ldyAbs (joinBytes low high))
    | .absoluteX => some (.ldyAbsX (joinBytes low high))
    | _ => none
  | .sta =>
    match mode with
    | .zeroPage => some (.staZp low)
    | .zeroPageX => some (.staZpX low)
    | .absolute => some (.staAbs (joinBytes low high))
    | .absoluteX => some (.staAbsX (joinBytes low high))
    | .absoluteY => some (.staAbsY (joinBytes low high))
    | .indirectX => some (.staIndX low)
    | .indirectY => some (.staIndY low)
    | _ => none
  | .stx =>
    match mode with
    | .zeroPage => some (.stxZp low)
    | .zeroPageY => some (.stxZpY low)
    | .absolute => some (.stxAbs (joinBytes low high))
    | _ => none
  | .sty =>
    match mode with
    | .zeroPage => some (.styZp low)
    | .zeroPageX => some (.styZpX low)
    | .absolute => some (.styAbs (joinBytes low high))
    | _ => none
  | .adc =>
    match mode with
    | .immediate => some (.adcImm low)
    | .zeroPage => some (.adcZp low)
    | .zeroPageX => some (.adcZpX low)
    | .absolute => some (.adcAbs (joinBytes low high))
    | .absoluteX => some (.adcAbsX (joinBytes low high))
    | .absoluteY => some (.adcAbsY (joinBytes low high))
    | .indirectX => some (.adcIndX low)
    | .indirectY => some (.adcIndY low)
    | _ => none
  | .cmp =>
    match mode with
    | .immediate => some (.cmpImm low)
    | .zeroPage => some (.cmpZp low)
    | .zeroPageX => some (.cmpZpX low)
    | .absolute => some (.cmpAbs (joinBytes low high))
    | .absoluteX => some (.cmpAbsX (joinBytes low high))
    | .absoluteY => some (.cmpAbsY (joinBytes low high))
    | .indirectX => some (.cmpIndX low)
    | .indirectY => some (.cmpIndY low)
    | _ => none
  | .cpx =>
    match mode with
    | .immediate => some (.cpxImm low)
    | .zeroPage => some (.cpxZp low)
    | .absolute => some (.cpxAbs (joinBytes low high))
    | _ => none
  | .cpy =>
    match mode with
    | .immediate => some (.cpyImm low)
    | .zeroPage => some (.cpyZp low)
    | .absolute => some (.cpyAbs (joinBytes low high))
    | _ => none
  | .inx =>
    match mode with
    | .implied => some .inx
    | _ => none
  | .iny =>
    match mode with
    | .implied => some .iny
    | _ => none
  | .dex =>
    match mode with
    | .implied => some .dex
    | _ => none
  | .dey =>
    match mode with
    | .implied => some .dey
    | _ => none
  | .tax =>
    match mode with
    | .implied => some .tax
    | _ => none
  | .jmp =>
    match mode with
    | .indirect => some (.jmp (joinBytes low high))
    | _ => none
  | .bne =>
    match mode with
    | .relative => some (.bne low)
    | _ => none
  | .hlt =>
    match mode with
    | .implied => some .hlt
    | _ => none

/-- The first `n` operand bytes of `bytes` as (low, high), and the bytes after them (R74); a mode that takes
fewer than two leaves the rest of the pair 0, and `assemble` does not look at it. -/
def takeOperand : Nat → List Byte → Option (Byte × Byte × List Byte)
  | 0, rest => some (0, 0, rest)
  | 1, low :: rest => some (low, 0, rest)
  | 2, low :: high :: rest => some (low, high, rest)
  | _, _ => none

/-- Decodes the instruction at the head of a byte list and gives it with the bytes after it (R70 to R74). -/
def decode : List Byte → Except DecodeError (Instr × List Byte)
  | [] => .error .noBytes
  | op :: rest =>
    match decodeOpcode op with
    | none => .error (.unsupportedOpcode op)
    | some row =>
      match takeOperand row.mode.size rest with
      | none => .error (.truncated op)
      | some (low, high, after) =>
        match assemble row.mnemonic row.mode low high with
        | none => .error (.unsupportedOpcode op)
        | some i => .ok (i, after)

/-! ### The encoder -/

/-- The opcode byte of an instruction, from the table by mnemonic and mode (R77). -/
def opcodeOf : Instr → Byte
  | .ldaImm _ => 0xA9
  | .ldaZp _ => 0xA5
  | .ldaZpX _ => 0xB5
  | .ldaAbs _ => 0xAD
  | .ldaAbsX _ => 0xBD
  | .ldaAbsY _ => 0xB9
  | .ldaIndX _ => 0xA1
  | .ldaIndY _ => 0xB1
  | .ldxImm _ => 0xA2
  | .ldxZp _ => 0xA6
  | .ldxZpY _ => 0xB6
  | .ldxAbs _ => 0xAE
  | .ldxAbsY _ => 0xBE
  | .ldyImm _ => 0xA0
  | .ldyZp _ => 0xA4
  | .ldyZpX _ => 0xB4
  | .ldyAbs _ => 0xAC
  | .ldyAbsX _ => 0xBC
  | .staZp _ => 0x85
  | .staZpX _ => 0x95
  | .staAbs _ => 0x8D
  | .staAbsX _ => 0x9D
  | .staAbsY _ => 0x99
  | .staIndX _ => 0x81
  | .staIndY _ => 0x91
  | .stxZp _ => 0x86
  | .stxZpY _ => 0x96
  | .stxAbs _ => 0x8E
  | .styZp _ => 0x84
  | .styZpX _ => 0x94
  | .styAbs _ => 0x8C
  | .adcImm _ => 0x69
  | .adcZp _ => 0x65
  | .adcZpX _ => 0x75
  | .adcAbs _ => 0x6D
  | .adcAbsX _ => 0x7D
  | .adcAbsY _ => 0x79
  | .adcIndX _ => 0x61
  | .adcIndY _ => 0x71
  | .cmpImm _ => 0xC9
  | .cmpZp _ => 0xC5
  | .cmpZpX _ => 0xD5
  | .cmpAbs _ => 0xCD
  | .cmpAbsX _ => 0xDD
  | .cmpAbsY _ => 0xD9
  | .cmpIndX _ => 0xC1
  | .cmpIndY _ => 0xD1
  | .cpxImm _ => 0xE0
  | .cpxZp _ => 0xE4
  | .cpxAbs _ => 0xEC
  | .cpyImm _ => 0xC0
  | .cpyZp _ => 0xC4
  | .cpyAbs _ => 0xCC
  | .inx => 0xE8
  | .iny => 0xC8
  | .dex => 0xCA
  | .dey => 0x88
  | .tax => 0xAA
  | .jmp _ => 0x6C
  | .bne _ => 0xD0
  | .hlt => 0x00

/-- The operand bytes, low byte at the lower address (R70, R74). -/
def Operand.bytes : Operand → List Byte
  | .none => []
  | .byte d => [d]
  | .word a => [loByte a, hiByte a]

/-- The bytes of an instruction in ascending addresses (R70). -/
def encode (i : Instr) : List Byte := opcodeOf i :: i.operand.bytes

/-! ### The host's numbering of a table word -/

/-- The longest instruction: three bytes (R70). -/
def maxInstrBytes : Nat := 3

/-- The bytes of an instruction whose bits are `w`, bit 0 the least significant bit of the first byte; bits at and above
`nbits` are 0. -/
def tableWordBytes (nbits w : Nat) : List Byte :=
  (List.range maxInstrBytes).map fun k => BitVec.ofNat 8 ((w % 2 ^ nbits) / 256 ^ k)

/-- The instruction the decoder reads from a word of opcode_table.json. -/
def decodeTableWord (nbits w : Nat) : Option Instr :=
  match decode (tableWordBytes nbits w) with
  | .ok (i, _) => some i
  | .error _ => none

end Sys2Proof
end

