-- ==== Sys2Proof/Machine/Params.lean ====
section
/-! DEFINITION. The parameters of the modelled machine. -/

namespace Sys2Proof.Machine

/-- The machine modelled by `exec` and `step`: every parameter of 00_scope.md R6 at its default (DESIGN CHOICE of the
spec: log 2, 6, 8, 9, 11, 12; unsafe where the real core differs). -/
def chip : Config := Config.specDefault

end Sys2Proof.Machine
end

