-- ==== Sys2Proof/Machine/State.lean ====
section
/-! DEFINITION. The whole state of the core, `(A, X, Y, SP, PC, P, RUN, M)` (10_state.md R26, R27), as plain data; the
reasons a step can stop; and reset. The page-crossed condition and the cycle count are values of one step, not state
(R28, R29; log 14). -/

namespace Sys2Proof.Machine

/-- Memory as (address, byte) pairs in one canonical form: addresses strictly rising and below 65536, and no byte equal
to `Memory.blank`, which is what an unlisted address reads as (log 22). -/
abbrev Memory := List Host.Cell

/-- What an unlisted address reads as: the reset contents of every cell, "created zero-filled" (R31). -/
def Memory.blank : Byte := 0x00#8

/-- The canonical form from address `lo` on. -/
def Memory.wfFrom : Nat → Memory → Bool
  | _, [] => true
  | lo, (k, v) :: rest => decide (lo ≤ k) && decide (k < 65536) && (v != Memory.blank) && Memory.wfFrom (k + 1) rest

/-- The canonical form of a memory. -/
def Memory.wf (m : Memory) : Bool := Memory.wfFrom 0 m

/-- The state of the core (R27). -/
structure State where
  /-- `A`, the accumulator (R10). -/
  a : Byte
  /-- `X`, index register X (R11). -/
  x : Byte
  /-- `Y`, index register Y (R12). -/
  y : Byte
  /-- `SP`, the stack pointer: storage that no instruction reads or writes (R13). -/
  sp : Byte
  /-- `PC`, the program counter (R14). -/
  pc : Addr
  /-- `P`, the status register: C Z I D B U V N at bits 0 to 7 (R17); all eight bits are storage (R19, R20). -/
  p : Byte
  /-- `RUN`, the continue-running flag (R25). -/
  run : Bool
  /-- `M`, the memory (R27, R40). -/
  mem : Memory
  deriving DecidableEq, Repr

/-- The three fault kinds of 60_exceptions.md R170 to R172, with the values R170 to R172 record (D15; log 15). A fault
leaves all state as it was (R173), so it carries no state. -/
inductive Fault where
  /-- R170: the byte `op` at `pc` has no row in the opcode table. Raised by `step` and by no meaning. Safe: the machine
  stops where the spec says it stops. -/
  | unsupportedOpcode (pc : Addr) (op : Byte)
  /-- R171: Implied mode reached the resolver, or a handler that needs an address got none. Raised only by `resolve` and
  `handle` of the fetch-decode-execute machine; unreachable from a step. Safe. -/
  | invalidAddressingRequest (pc : Addr) (op : Byte)
  /-- R172: a host load of `n` bytes at `address` with `address + n > 65536`. Raised by the host operations `load` and
  `loadExecutable` only. Safe. -/
  | loadOutOfRange (address : Addr) (n : Nat)
  deriving DecidableEq, Repr

/-- Why an instruction would have no meaning. No instruction of this model is refused. -/
inductive Refusal where
  /-- An instruction rejected by name in the dispatch, for want of a meaning. Raised by no arm. Safe. -/
  | notModelled (mnemonic : String)
  deriving DecidableEq, Repr

/-- The state after reset under the parameters `c`: R31 for `power_on` and R32 for `zero`. -/
def State.resetWith (c : Config) : State where
  a := 0x00#8
  x := 0x00#8
  y := 0x00#8
  sp := match c.resetConvention with | .powerOn => 0xFF#8 | .zero => 0x00#8
  pc := 0x0000#16
  p := match c.resetConvention with | .powerOn => c.pReset | .zero => 0x00#8
  run := false
  mem := []

/-- The state after reset (R31, R200): the convention `power_on` (log 11), `P_RESET` = 0x20 (log 12) and `RUN` = 0
(log 13) are DESIGN CHOICES of the spec; the other values are the source's. -/
def State.reset : State := State.resetWith chip

end Sys2Proof.Machine
end

