-- ==== Sys2Proof/Machine/Flags.lean ====
section
/-! DEFINITION. The status register's helpers (10_state.md R17, R22 to R24) and the `alu_8bit` block (42_alu.md R120 to
R123): functions of their operands alone. -/

namespace Sys2Proof.Machine

/-- The eight bits of `P` by name, low to high (R17). -/
inductive Flag where
  | c | z | i | d | b | u | v | n
  deriving DecidableEq, Repr

/-- The mask of a flag (R17). -/
def Flag.mask : Flag → Byte
  | .c => 0x01
  | .z => 0x02
  | .i => 0x04
  | .d => 0x08
  | .b => 0x10
  | .u => 0x20
  | .v => 0x40
  | .n => 0x80

/-- `checkFlag(f)`: `(P & mask(f)) != 0` (R22). -/
def checkFlag (f : Flag) (p : Byte) : Bool := (p &&& f.mask) != 0

/-- `setFlag(f)`: `P | mask(f)` (R23). -/
def setFlag (f : Flag) (p : Byte) : Byte := p ||| f.mask

/-- `clearFlag(f)`: `P & ~mask(f)` (R24). -/
def clearFlag (f : Flag) (p : Byte) : Byte := p &&& ~~~f.mask

/-- A flag write of an instruction rule: one `setFlag` or `clearFlag`, chosen by the condition (R24). -/
def assignFlag (f : Flag) (cond : Bool) (p : Byte) : Byte := if cond then setFlag f p else clearFlag f p

/-- `setNZ(v)`: Z is 1 iff `v` is 0x00, N is bit 7 of `v`; both are assigned every time (R120). -/
def setNZ (v p : Byte) : Byte := assignFlag .n v.msb (assignFlag .z (v == 0#8) p)

/-- What `adc8` gives: the sum, the carry out and the overflow (R121). -/
structure AdcResult where
  sum : Byte
  carry : Bool
  overflow : Bool
  deriving DecidableEq, Repr

/-- `adc8(a, m, cin)` (R121): a binary sum always (log 24), whose carry is that of the whole three-term sum (DESIGN
CHOICE of the spec, D10; log 10; unsafe). -/
def adc8 (a m : Byte) (cin : Bool) : AdcResult :=
  let t := a.toNat + m.toNat + cin.toNat
  let r := BitVec.ofNat 8 t
  { sum := r
    carry := decide (255 < t)
    overflow := ((m ^^^ r) &&& (a ^^^ r) &&& 0x80#8) != 0 }

/-- What `cmp8` gives: the wrapped difference and the carry (R122). -/
structure CmpResult where
  diff : Byte
  carry : Bool
  deriving DecidableEq, Repr

/-- `cmp8(r, m)`: `r - m` mod 256, and whether `r >= m` unsigned (R122). -/
def cmp8 (r m : Byte) : CmpResult := ⟨r - m, decide (m.toNat ≤ r.toNat)⟩

/-- `inc8(v)` (R123). -/
def inc8 (v : Byte) : Byte := v + 1#8

/-- `dec8(v)` (R123). -/
def dec8 (v : Byte) : Byte := v - 1#8

end Sys2Proof.Machine
end

