-- ==== Sys2Proof/Machine/Ops.lean ====
section
/-! DEFINITION. The named operations over memory and registers that every meaning and every host operation is written
with. The spec gives the machine no exception entry and no return from one (60_exceptions.md R179, R180): a fault only
ends the operation, so the one shared operation for it is `unsupported`. -/

namespace Sys2Proof.Machine

/-! ### Memory (20_memory.md R40 to R46, R48) -/

/-- The byte at an address: the listed one, or what an unlisted address reads as. -/
def Memory.read : Memory → Nat → Byte
  | [], _ => Memory.blank
  | (k', v') :: rest, k => if k' = k then v' else Memory.read rest k

/-- Puts a byte at an address and keeps the canonical form: writing `Memory.blank` removes the entry. -/
def Memory.write : Memory → Nat → Byte → Memory
  | [], k, v => if v = Memory.blank then [] else [(k, v)]
  | (k', v') :: rest, k, v =>
    if k < k' then if v = Memory.blank then (k', v') :: rest else (k, v) :: (k', v') :: rest
    else if k = k' then if v = Memory.blank then rest else (k, v) :: rest
    else (k', v') :: Memory.write rest k v

/-- `MemRead(addr, 1)` (R43). -/
def Memory.readByte (m : Memory) (addr : Addr) : Byte := Memory.read m addr.toNat

/-- `MemWrite(addr, 1, v)` (R45). -/
def Memory.writeByte (m : Memory) (addr : Addr) (v : Byte) : Memory := Memory.write m addr.toNat v

/-- `MemRead(addr, 2)`: the byte at `addr` low, the byte at the next address mod 65536 high (R44; the wrap is the default
of `WORD_WRAP_AT_TOP`, log 6). -/
def Memory.readWord (m : Memory) (addr : Addr) : Addr := joinBytes (m.readByte addr) (m.readByte (addr + 1#16))

/-- `MemWrite(addr, 2, v)`: the low byte, then the high byte at the next address mod 65536 (R46). Part of the memory's
interface; no instruction uses it. -/
def Memory.writeWord (m : Memory) (addr : Addr) (v : Addr) : Memory :=
  (m.writeByte addr (loByte v)).writeByte (addr + 1#16) (hiByte v)

/-- Writes bytes at rising addresses from `k` on, as R48 does after its bound check. -/
def Memory.writeBytes : Memory → Nat → List Byte → Memory
  | m, _, [] => m
  | m, k, b :: rest => Memory.writeBytes (Memory.write m k b) (k + 1) rest

/-- Writes bytes at rising addresses mod 65536 from `addr` on. -/
def placeFrom : Memory → Addr → List Byte → Memory
  | m, _, [] => m
  | m, addr, b :: rest => placeFrom (m.writeByte addr b) (addr + 1#16) rest

/-! ### Named updates of the state, one for each piece of it -/

def State.setA (s : State) (v : Byte) : State := { s with a := v }
def State.setX (s : State) (v : Byte) : State := { s with x := v }
def State.setY (s : State) (v : Byte) : State := { s with y := v }
def State.setSp (s : State) (v : Byte) : State := { s with sp := v }
def State.setPc (s : State) (v : Addr) : State := { s with pc := v }
def State.setP (s : State) (v : Byte) : State := { s with p := v }
def State.setRun (s : State) (v : Bool) : State := { s with run := v }
def State.setMem (s : State) (v : Memory) : State := { s with mem := v }

/-- The program counter incrementer: `(PC + n) mod 65536` (42_alu.md R124 (d), 10_state.md R16; the wrap is a DESIGN
CHOICE of the spec, D7; log 7). -/
def State.advance (s : State) (n : Nat) : State := s.setPc (s.pc + BitVec.ofNat 16 n)

/-- `setNZ(v)` on the state's status register (R120). -/
def State.withNZ (s : State) (v : Byte) : State := s.setP (setNZ v s.p)

/-- The byte at an effective address. -/
def State.byteAt (s : State) (addr : Addr) : Byte := s.mem.readByte addr

/-! ### What a step fetches, and the fault it can end in -/

/-- What a meaning answers. -/
abbrev Result := Host.Outcome State Fault Refusal

/-- The opcode byte and the two bytes after it, mod 65536. A step looks at as many of them as the instruction has (R58:
the reads of a step are unobservable; log 23). -/
def fetchBytes (s : State) : List Byte := [s.byteAt s.pc, s.byteAt (s.pc + 1#16), s.byteAt (s.pc + 2#16)]

/-- Raises `UnsupportedOpcode` with the unchanged PC and the byte at it (R170). -/
def unsupported (s : State) : Result := .fault (.unsupportedOpcode s.pc (s.byteAt s.pc))

end Sys2Proof.Machine
end

