-- ==== Sys2Proof/Machine/Operands.lean ====
section
/-! DEFINITION. The `addressing_mode_resolver` block (41_addressing_modes.md): the effective address of every mode, as a
function of the operand the instruction carries and of the registers and memory. No mode writes anything (R100). -/

namespace Sys2Proof.Machine

/-- What `resolve` returns: the effective address and the page-crossed condition (R100; D14, log 14). -/
structure Resolved where
  ea : Addr
  crossed : Bool
  deriving DecidableEq, Repr

/-- `zext_16(v)` (00_scope.md R8). -/
def zext16 (v : Byte) : Addr := v.setWidth 16

/-- `sext_16(v)`, for the branch displacement only (30_encoding.md R74). -/
def sext16 (v : Byte) : Addr := v.signExtend 16

/-- The 16-bit address adder with the page-crossed condition (42_alu.md R124 (a); 41 R105, R114). -/
def indexed (base : Addr) (index : Byte) : Resolved :=
  let ea := base + zext16 index
  ⟨ea, hiByte ea != hiByte base⟩

/-- The pointer word at a zero-page address. By default a plain word read, so the high byte of a pointer at 0xFF comes
from 0x0100 (R111, R112); with `wrap` (`ZP_POINTER_WRAP`) it comes from 0x0000 (DESIGN CHOICE of the spec, D8; log 8). -/
def zpPointer (wrap : Bool) (m : Memory) (z : Byte) : Addr :=
  if wrap then joinBytes (m.readByte (zext16 z)) (m.readByte (zext16 (z + 1#8))) else m.readWord (zext16 z)

/-- The target word of an indirect jump. By default a plain word read; with `wrap` (`JMP_IND_PAGE_WRAP`) the high byte
comes from the same page (46_control_flow.md R160; DESIGN CHOICE of the spec, D9; log 9). -/
def jumpTarget (wrap : Bool) (m : Memory) (ea : Addr) : Addr :=
  if wrap then joinBytes (m.readByte ea) (m.readByte (joinBytes (loByte ea + 1#8) (hiByte ea))) else m.readWord ea

/-! ### One function for each mode that has an effective address -/

/-- Immediate and Relative: the operand's own location, where `pc` is the address of the first operand byte (R102,
R103). -/
def eaOperand (pc : Addr) : Resolved := ⟨pc, false⟩

/-- Absolute (R104). -/
def eaAbsolute (a : Addr) : Resolved := ⟨a, false⟩

/-- Absolute-X (R105). -/
def eaAbsoluteX (a : Addr) (s : State) : Resolved := indexed a s.x

/-- Absolute-Y (R106). -/
def eaAbsoluteY (a : Addr) (s : State) : Resolved := indexed a s.y

/-- Indirect: the address of the pointer, not dereferenced (R107). -/
def eaIndirect (a : Addr) : Resolved := ⟨a, false⟩

/-- Zero-Page (R108). -/
def eaZeroPage (d : Byte) : Resolved := ⟨zext16 d, false⟩

/-- Zero-Page-X: the index wraps within the page (R109). -/
def eaZeroPageX (d : Byte) (s : State) : Resolved := ⟨zext16 (d + s.x), false⟩

/-- Zero-Page-Y (R110). -/
def eaZeroPageY (d : Byte) (s : State) : Resolved := ⟨zext16 (d + s.y), false⟩

/-- Indirect-X: the word at the zero-page index `d + X` (R111). -/
def eaIndirectX (c : Config) (d : Byte) (s : State) : Resolved := ⟨zpPointer c.zpPointerWrap s.mem (d + s.x), false⟩

/-- Indirect-Y: the word at the zero-page address `d`, plus Y (R112). -/
def eaIndirectY (c : Config) (d : Byte) (s : State) : Resolved := indexed (zpPointer c.zpPointerWrap s.mem d) s.y

end Sys2Proof.Machine
end

