-- ==== Sys2Proof/Machine/Adc.lean ====
section
/-! DEFINITION. ADC (44_adc_compare.md R140). -/

namespace Sys2Proof.Machine

/-- The handler of R140 on the operand `m`: C, V, A, then N and Z of the result. -/
def addCarry (m : Byte) (s : State) : State :=
  let r := adc8 s.a m (checkFlag .c s.p)
  ((s.setP (assignFlag .v r.overflow (assignFlag .c r.carry s.p))).setA r.sum).withNZ r.sum

/-- ADC #$nn, byte 69 (R140, 41 R102). -/
def execAdcImm (d : Byte) (s : State) : Result := .next (addCarry d (s.advance 2))

/-- ADC $nn, byte 65 (R140, 41 R108). -/
def execAdcZp (d : Byte) (s : State) : Result := .next (addCarry (s.byteAt (eaZeroPage d).ea) (s.advance 2))

/-- ADC $nn,X, byte 75 (R140, 41 R109). -/
def execAdcZpX (d : Byte) (s : State) : Result := .next (addCarry (s.byteAt (eaZeroPageX d s).ea) (s.advance 2))

/-- ADC $nnnn, byte 6D (R140, 41 R104). -/
def execAdcAbs (a : Addr) (s : State) : Result := .next (addCarry (s.byteAt (eaAbsolute a).ea) (s.advance 3))

/-- ADC $nnnn,X, byte 7D (R140, 41 R105). -/
def execAdcAbsX (a : Addr) (s : State) : Result := .next (addCarry (s.byteAt (eaAbsoluteX a s).ea) (s.advance 3))

/-- ADC $nnnn,Y, byte 79 (R140, 41 R106). -/
def execAdcAbsY (a : Addr) (s : State) : Result := .next (addCarry (s.byteAt (eaAbsoluteY a s).ea) (s.advance 3))

/-- ADC ($nn,X), byte 61 (R140, 41 R111). -/
def execAdcIndX (d : Byte) (s : State) : Result := .next (addCarry (s.byteAt (eaIndirectX chip d s).ea) (s.advance 2))

/-- ADC ($nn),Y, byte 71 (R140, 41 R112). -/
def execAdcIndY (d : Byte) (s : State) : Result := .next (addCarry (s.byteAt (eaIndirectY chip d s).ea) (s.advance 2))

end Sys2Proof.Machine
end

