-- ==== Sys2Proof/Machine/Compare.lean ====
section
/-! DEFINITION. CMP, CPX and CPY (44_adc_compare.md R141 to R143): C, Z and N of the register less the operand; no
register is written. -/

namespace Sys2Proof.Machine

/-- The handler of R141 to R143: the flags of `r - m`, the difference discarded. -/
def compare (r m : Byte) (s : State) : State :=
  let d := cmp8 r m
  (s.setP (assignFlag .c d.carry s.p)).withNZ d.diff

/-- CMP #$nn, byte C9 (R141, 41 R102). -/
def execCmpImm (d : Byte) (s : State) : Result := .next (compare s.a d (s.advance 2))

/-- CMP $nn, byte C5 (R141, 41 R108). -/
def execCmpZp (d : Byte) (s : State) : Result := .next (compare s.a (s.byteAt (eaZeroPage d).ea) (s.advance 2))

/-- CMP $nn,X, byte D5 (R141, 41 R109). -/
def execCmpZpX (d : Byte) (s : State) : Result := .next (compare s.a (s.byteAt (eaZeroPageX d s).ea) (s.advance 2))

/-- CMP $nnnn, byte CD (R141, 41 R104). -/
def execCmpAbs (a : Addr) (s : State) : Result := .next (compare s.a (s.byteAt (eaAbsolute a).ea) (s.advance 3))

/-- CMP $nnnn,X, byte DD (R141, 41 R105). -/
def execCmpAbsX (a : Addr) (s : State) : Result := .next (compare s.a (s.byteAt (eaAbsoluteX a s).ea) (s.advance 3))

/-- CMP $nnnn,Y, byte D9 (R141, 41 R106). -/
def execCmpAbsY (a : Addr) (s : State) : Result := .next (compare s.a (s.byteAt (eaAbsoluteY a s).ea) (s.advance 3))

/-- CMP ($nn,X), byte C1 (R141, 41 R111). -/
def execCmpIndX (d : Byte) (s : State) : Result := .next (compare s.a (s.byteAt (eaIndirectX chip d s).ea) (s.advance 2))

/-- CMP ($nn),Y, byte D1 (R141, 41 R112). -/
def execCmpIndY (d : Byte) (s : State) : Result := .next (compare s.a (s.byteAt (eaIndirectY chip d s).ea) (s.advance 2))

/-- CPX #$nn, byte E0 (R142, 41 R102). -/
def execCpxImm (d : Byte) (s : State) : Result := .next (compare s.x d (s.advance 2))

/-- CPX $nn, byte E4 (R142, 41 R108). -/
def execCpxZp (d : Byte) (s : State) : Result := .next (compare s.x (s.byteAt (eaZeroPage d).ea) (s.advance 2))

/-- CPX $nnnn, byte EC (R142, 41 R104). -/
def execCpxAbs (a : Addr) (s : State) : Result := .next (compare s.x (s.byteAt (eaAbsolute a).ea) (s.advance 3))

/-- CPY #$nn, byte C0 (R143, 41 R102). -/
def execCpyImm (d : Byte) (s : State) : Result := .next (compare s.y d (s.advance 2))

/-- CPY $nn, byte C4 (R143, 41 R108). -/
def execCpyZp (d : Byte) (s : State) : Result := .next (compare s.y (s.byteAt (eaZeroPage d).ea) (s.advance 2))

/-- CPY $nnnn, byte CC (R143, 41 R104). -/
def execCpyAbs (a : Addr) (s : State) : Result := .next (compare s.y (s.byteAt (eaAbsolute a).ea) (s.advance 3))

end Sys2Proof.Machine
end

