-- ==== Sys2Proof/Machine/Control.lean ====
section
/-! DEFINITION. JMP (Indirect), BNE and HLT (46_control_flow.md R160 to R162). The handler runs with PC at the next
instruction (40_fetch_decode_execute.md R91, R92). -/

namespace Sys2Proof.Machine

/-- The handler of JMP: PC becomes the word read through the pointer at `ea` (R160). -/
def jumpThrough (c : Config) (ea : Addr) (s : State) : State := s.setPc (jumpTarget c.jmpIndPageWrap s.mem ea)

/-- The branch adder: `(pc + sext_16(d)) mod 65536` (42_alu.md R124 (c)). -/
def branchTarget (pc : Addr) (d : Byte) : Addr := pc + sext16 d

/-- The handler of BNE on the displacement `d`: taken iff Z is clear (R161). -/
def branchNotEqual (d : Byte) (s : State) : State :=
  if checkFlag .z s.p then s else s.setPc (branchTarget s.pc d)

/-- The handler of HLT: RUN becomes 0 and nothing else changes (R162; DESIGN CHOICE of the spec, D29; log 25). -/
def halt (s : State) : State := s.setRun false

/-- JMP ($nnnn), byte 6C (R160, 41 R107). -/
def execJmp (a : Addr) (s : State) : Result := .next (jumpThrough chip (eaIndirect a).ea (s.advance 3))

/-- BNE rel, byte D0 (R161, 41 R103). -/
def execBne (d : Byte) (s : State) : Result := .next (branchNotEqual d (s.advance 2))

/-- HLT, byte 00 (R162, 41 R101). -/
def execHlt (s : State) : Result := .next (halt (s.advance 1))

end Sys2Proof.Machine
end

