-- ==== Sys2Proof/Machine/Load.lean ====
section
/-! DEFINITION. LDA, LDX and LDY (43_load_store.md R130 to R132). The byte loaded is the operand itself in Immediate mode
(41_addressing_modes.md R102; log 1) and the byte at the effective address otherwise; the handler runs with PC past the
instruction (40_fetch_decode_execute.md R91). -/

namespace Sys2Proof.Machine

/-- `A <- v; setNZ(v)` (R130). -/
def loadA (v : Byte) (s : State) : State := (s.setA v).withNZ v

/-- `X <- v; setNZ(v)` (R131). -/
def loadX (v : Byte) (s : State) : State := (s.setX v).withNZ v

/-- `Y <- v; setNZ(v)` (R132). -/
def loadY (v : Byte) (s : State) : State := (s.setY v).withNZ v

/-- LDA #$nn, byte A9 (R130, 41 R102). -/
def execLdaImm (d : Byte) (s : State) : Result := .next (loadA d (s.advance 2))

/-- LDA $nn, byte A5 (R130, 41 R108). -/
def execLdaZp (d : Byte) (s : State) : Result := .next (loadA (s.byteAt (eaZeroPage d).ea) (s.advance 2))

/-- LDA $nn,X, byte B5 (R130, 41 R109). -/
def execLdaZpX (d : Byte) (s : State) : Result := .next (loadA (s.byteAt (eaZeroPageX d s).ea) (s.advance 2))

/-- LDA $nnnn, byte AD (R130, 41 R104). -/
def execLdaAbs (a : Addr) (s : State) : Result := .next (loadA (s.byteAt (eaAbsolute a).ea) (s.advance 3))

/-- LDA $nnnn,X, byte BD (R130, 41 R105). -/
def execLdaAbsX (a : Addr) (s : State) : Result := .next (loadA (s.byteAt (eaAbsoluteX a s).ea) (s.advance 3))

/-- LDA $nnnn,Y, byte B9 (R130, 41 R106). -/
def execLdaAbsY (a : Addr) (s : State) : Result := .next (loadA (s.byteAt (eaAbsoluteY a s).ea) (s.advance 3))

/-- LDA ($nn,X), byte A1 (R130, 41 R111). -/
def execLdaIndX (d : Byte) (s : State) : Result := .next (loadA (s.byteAt (eaIndirectX chip d s).ea) (s.advance 2))

/-- LDA ($nn),Y, byte B1 (R130, 41 R112). -/
def execLdaIndY (d : Byte) (s : State) : Result := .next (loadA (s.byteAt (eaIndirectY chip d s).ea) (s.advance 2))

/-- LDX #$nn, byte A2 (R131, 41 R102). -/
def execLdxImm (d : Byte) (s : State) : Result := .next (loadX d (s.advance 2))

/-- LDX $nn, byte A6 (R131, 41 R108). -/
def execLdxZp (d : Byte) (s : State) : Result := .next (loadX (s.byteAt (eaZeroPage d).ea) (s.advance 2))

/-- LDX $nn,Y, byte B6 (R131, 41 R110). -/
def execLdxZpY (d : Byte) (s : State) : Result := .next (loadX (s.byteAt (eaZeroPageY d s).ea) (s.advance 2))

/-- LDX $nnnn, byte AE (R131, 41 R104). -/
def execLdxAbs (a : Addr) (s : State) : Result := .next (loadX (s.byteAt (eaAbsolute a).ea) (s.advance 3))

/-- LDX $nnnn,Y, byte BE (R131, 41 R106). -/
def execLdxAbsY (a : Addr) (s : State) : Result := .next (loadX (s.byteAt (eaAbsoluteY a s).ea) (s.advance 3))

/-- LDY #$nn, byte A0 (R132, 41 R102). -/
def execLdyImm (d : Byte) (s : State) : Result := .next (loadY d (s.advance 2))

/-- LDY $nn, byte A4 (R132, 41 R108). -/
def execLdyZp (d : Byte) (s : State) : Result := .next (loadY (s.byteAt (eaZeroPage d).ea) (s.advance 2))

/-- LDY $nn,X, byte B4 (R132, 41 R109). -/
def execLdyZpX (d : Byte) (s : State) : Result := .next (loadY (s.byteAt (eaZeroPageX d s).ea) (s.advance 2))

/-- LDY $nnnn, byte AC (R132, 41 R104). -/
def execLdyAbs (a : Addr) (s : State) : Result := .next (loadY (s.byteAt (eaAbsolute a).ea) (s.advance 3))

/-- LDY $nnnn,X, byte BC (R132, 41 R105). -/
def execLdyAbsX (a : Addr) (s : State) : Result := .next (loadY (s.byteAt (eaAbsoluteX a s).ea) (s.advance 3))

end Sys2Proof.Machine
end

