-- ==== Sys2Proof/Machine/Register.lean ====
section
/-! DEFINITION. INX, INY, DEX, DEY and TAX (45_register_ops.md R150 to R154): Implied mode, one byte. -/

namespace Sys2Proof.Machine

/-- `X <- inc8(X); setNZ(X)` (R150). -/
def incX (s : State) : State := loadX (inc8 s.x) s

/-- `Y <- inc8(Y); setNZ(Y)` (R151). -/
def incY (s : State) : State := loadY (inc8 s.y) s

/-- `X <- dec8(X); setNZ(X)` (R152). -/
def decX (s : State) : State := loadX (dec8 s.x) s

/-- `Y <- dec8(Y); setNZ(Y)` (R153). -/
def decY (s : State) : State := loadY (dec8 s.y) s

/-- `X <- A; setNZ(X)` (R154). -/
def transferAX (s : State) : State := loadX s.a s

/-- INX, byte E8 (R150, 41 R101). -/
def execInx (s : State) : Result := .next (incX (s.advance 1))

/-- INY, byte C8 (R151, 41 R101). -/
def execIny (s : State) : Result := .next (incY (s.advance 1))

/-- DEX, byte CA (R152, 41 R101). -/
def execDex (s : State) : Result := .next (decX (s.advance 1))

/-- DEY, byte 88 (R153, 41 R101). -/
def execDey (s : State) : Result := .next (decY (s.advance 1))

/-- TAX, byte AA (R154, 41 R101). -/
def execTax (s : State) : Result := .next (transferAX (s.advance 1))

end Sys2Proof.Machine
end

