-- ==== Sys2Proof/Machine/Store.lean ====
section
/-! DEFINITION. STA, STX and STY (43_load_store.md R133 to R135): one byte written at the effective address, no flag. -/

namespace Sys2Proof.Machine

/-- `MemWrite(ea, 1, v)` (R133 to R135). -/
def store (ea : Addr) (v : Byte) (s : State) : State := s.setMem (s.mem.writeByte ea v)

/-- STA $nn, byte 85 (R133, 41 R108). -/
def execStaZp (d : Byte) (s : State) : Result := .next (store (eaZeroPage d).ea s.a (s.advance 2))

/-- STA $nn,X, byte 95 (R133, 41 R109). -/
def execStaZpX (d : Byte) (s : State) : Result := .next (store (eaZeroPageX d s).ea s.a (s.advance 2))

/-- STA $nnnn, byte 8D (R133, 41 R104). -/
def execStaAbs (a : Addr) (s : State) : Result := .next (store (eaAbsolute a).ea s.a (s.advance 3))

/-- STA $nnnn,X, byte 9D (R133, 41 R105). -/
def execStaAbsX (a : Addr) (s : State) : Result := .next (store (eaAbsoluteX a s).ea s.a (s.advance 3))

/-- STA $nnnn,Y, byte 99 (R133, 41 R106). -/
def execStaAbsY (a : Addr) (s : State) : Result := .next (store (eaAbsoluteY a s).ea s.a (s.advance 3))

/-- STA ($nn,X), byte 81 (R133, 41 R111). -/
def execStaIndX (d : Byte) (s : State) : Result := .next (store (eaIndirectX chip d s).ea s.a (s.advance 2))

/-- STA ($nn),Y, byte 91 (R133, 41 R112). -/
def execStaIndY (d : Byte) (s : State) : Result := .next (store (eaIndirectY chip d s).ea s.a (s.advance 2))

/-- STX $nn, byte 86 (R134, 41 R108). -/
def execStxZp (d : Byte) (s : State) : Result := .next (store (eaZeroPage d).ea s.x (s.advance 2))

/-- STX $nn,Y, byte 96 (R134, 41 R110). -/
def execStxZpY (d : Byte) (s : State) : Result := .next (store (eaZeroPageY d s).ea s.x (s.advance 2))

/-- STX $nnnn, byte 8E (R134, 41 R104). -/
def execStxAbs (a : Addr) (s : State) : Result := .next (store (eaAbsolute a).ea s.x (s.advance 3))

/-- STY $nn, byte 84 (R135, 41 R108). -/
def execStyZp (d : Byte) (s : State) : Result := .next (store (eaZeroPage d).ea s.y (s.advance 2))

/-- STY $nn,X, byte 94 (R135, 41 R109). -/
def execStyZpX (d : Byte) (s : State) : Result := .next (store (eaZeroPageX d s).ea s.y (s.advance 2))

/-- STY $nnnn, byte 8C (R135, 41 R104). -/
def execStyAbs (a : Addr) (s : State) : Result := .next (store (eaAbsolute a).ea s.y (s.advance 3))

end Sys2Proof.Machine
end

