-- ==== Sys2Proof/Machine/Dispatch.lean ====
section
/-! DEFINITION. The meaning of every instruction, one arm for each constructor. `exec i s` runs `i` at the state `s` whose
PC is the address of the opcode byte of `i`. -/

namespace Sys2Proof.Machine

def exec (i : Instr) (s : State) : Host.Outcome State Fault Refusal :=
  match i with
  -- LDA (R130)
  | .ldaImm d => Sys2Proof.Machine.execLdaImm d s
  | .ldaZp d => Sys2Proof.Machine.execLdaZp d s
  | .ldaZpX d => Sys2Proof.Machine.execLdaZpX d s
  | .ldaAbs a => Sys2Proof.Machine.execLdaAbs a s
  | .ldaAbsX a => Sys2Proof.Machine.execLdaAbsX a s
  | .ldaAbsY a => Sys2Proof.Machine.execLdaAbsY a s
  | .ldaIndX d => Sys2Proof.Machine.execLdaIndX d s
  | .ldaIndY d => Sys2Proof.Machine.execLdaIndY d s
  -- LDX (R131)
  | .ldxImm d => Sys2Proof.Machine.execLdxImm d s
  | .ldxZp d => Sys2Proof.Machine.execLdxZp d s
  | .ldxZpY d => Sys2Proof.Machine.execLdxZpY d s
  | .ldxAbs a => Sys2Proof.Machine.execLdxAbs a s
  | .ldxAbsY a => Sys2Proof.Machine.execLdxAbsY a s
  -- LDY (R132)
  | .ldyImm d => Sys2Proof.Machine.execLdyImm d s
  | .ldyZp d => Sys2Proof.Machine.execLdyZp d s
  | .ldyZpX d => Sys2Proof.Machine.execLdyZpX d s
  | .ldyAbs a => Sys2Proof.Machine.execLdyAbs a s
  | .ldyAbsX a => Sys2Proof.Machine.execLdyAbsX a s
  -- STA (R133)
  | .staZp d => Sys2Proof.Machine.execStaZp d s
  | .staZpX d => Sys2Proof.Machine.execStaZpX d s
  | .staAbs a => Sys2Proof.Machine.execStaAbs a s
  | .staAbsX a => Sys2Proof.Machine.execStaAbsX a s
  | .staAbsY a => Sys2Proof.Machine.execStaAbsY a s
  | .staIndX d => Sys2Proof.Machine.execStaIndX d s
  | .staIndY d => Sys2Proof.Machine.execStaIndY d s
  -- STX (R134)
  | .stxZp d => Sys2Proof.Machine.execStxZp d s
  | .stxZpY d => Sys2Proof.Machine.execStxZpY d s
  | .stxAbs a => Sys2Proof.Machine.execStxAbs a s
  -- STY (R135)
  | .styZp d => Sys2Proof.Machine.execStyZp d s
  | .styZpX d => Sys2Proof.Machine.execStyZpX d s
  | .styAbs a => Sys2Proof.Machine.execStyAbs a s
  -- ADC (R140)
  | .adcImm d => Sys2Proof.Machine.execAdcImm d s
  | .adcZp d => Sys2Proof.Machine.execAdcZp d s
  | .adcZpX d => Sys2Proof.Machine.execAdcZpX d s
  | .adcAbs a => Sys2Proof.Machine.execAdcAbs a s
  | .adcAbsX a => Sys2Proof.Machine.execAdcAbsX a s
  | .adcAbsY a => Sys2Proof.Machine.execAdcAbsY a s
  | .adcIndX d => Sys2Proof.Machine.execAdcIndX d s
  | .adcIndY d => Sys2Proof.Machine.execAdcIndY d s
  -- CMP (R141)
  | .cmpImm d => Sys2Proof.Machine.execCmpImm d s
  | .cmpZp d => Sys2Proof.Machine.execCmpZp d s
  | .cmpZpX d => Sys2Proof.Machine.execCmpZpX d s
  | .cmpAbs a => Sys2Proof.Machine.execCmpAbs a s
  | .cmpAbsX a => Sys2Proof.Machine.execCmpAbsX a s
  | .cmpAbsY a => Sys2Proof.Machine.execCmpAbsY a s
  | .cmpIndX d => Sys2Proof.Machine.execCmpIndX d s
  | .cmpIndY d => Sys2Proof.Machine.execCmpIndY d s
  -- CPX (R142)
  | .cpxImm d => Sys2Proof.Machine.execCpxImm d s
  | .cpxZp d => Sys2Proof.Machine.execCpxZp d s
  | .cpxAbs a => Sys2Proof.Machine.execCpxAbs a s
  -- CPY (R143)
  | .cpyImm d => Sys2Proof.Machine.execCpyImm d s
  | .cpyZp d => Sys2Proof.Machine.execCpyZp d s
  | .cpyAbs a => Sys2Proof.Machine.execCpyAbs a s
  -- INX (R150)
  | .inx => Sys2Proof.Machine.execInx s
  -- INY (R151)
  | .iny => Sys2Proof.Machine.execIny s
  -- DEX (R152)
  | .dex => Sys2Proof.Machine.execDex s
  -- DEY (R153)
  | .dey => Sys2Proof.Machine.execDey s
  -- TAX (R154)
  | .tax => Sys2Proof.Machine.execTax s
  -- JMP (R160)
  | .jmp a => Sys2Proof.Machine.execJmp a s
  -- BNE (R161)
  | .bne d => Sys2Proof.Machine.execBne d s
  -- HLT (R162)
  | .hlt => Sys2Proof.Machine.execHlt s

end Sys2Proof.Machine
end

