-- ==== Sys2Proof/Machine/Step.lean ====
section
/-! DEFINITION. One step of the machine (40_fetch_decode_execute.md R90): fetch at PC, decode, execute. `step` does not
read RUN (R95; D17, log 17). -/

namespace Sys2Proof.Machine

/-- `step()` of R90: `exec` of the instruction whose bytes stand at PC, or `UnsupportedOpcode` with nothing changed. -/
def step (s : State) : Host.Outcome State Fault Refusal :=
  match decode (fetchBytes s) with
  | .ok (i, _) => exec i s
  | .error _ => unsupported s

/-- The state with the bytes of a table word placed where `step` fetches: at PC, PC + 1 and PC + 2 mod 65536. Nothing
else is needed for the next step to run them (R95, R202). It stands for the host's load of a program (R203; log 28). -/
def State.withFetchWord (s : State) (nbits w : Nat) : State :=
  s.setMem (placeFrom s.mem s.pc (tableWordBytes nbits w))

end Sys2Proof.Machine
end

