-- ==== Sys2Proof/Machine/Fsm.lean ====
section
/-! DEFINITION. The `fetch_decode_execute_fsm` block as 40_fetch_decode_execute.md R90 writes it, over every value of the
parameters of 00_scope.md R6: decode to (mnemonic, mode, base), resolve from memory, advance, hand the effective address
to the handler of the mnemonic, and report the cycle count or the fault (R96, R97). At the parameters of `chip` it is the
machine of `step` (an obligation), with the cycle count that `step` leaves out (R212: "a number computed beside the
transition"; log 14). -/

namespace Sys2Proof.Machine

/-- The faults of the parameterised machine: the three kinds of R175, and the bounds fault that D6 says the value `fault`
of `WORD_WRAP_AT_TOP` adds to them (log 27). -/
inductive FsmFault where
  | core (f : Fault)
  | wordAtTop (addr : Addr)
  deriving DecidableEq, Repr

/-- The outcome of a step (R97): the cycle count with the new state, or a fault. -/
inductive StepReport where
  | ok (cycles : Nat) (s : State)
  | fault (f : FsmFault)
  deriving DecidableEq, Repr

/-- `decode(byte)` restricted to `IMPLEMENTED_OPCODES` (R71, R78). -/
def implementedRow (c : Config) (op : Byte) : Option OpcodeRow :=
  if c.implementedOpcodes.contains op then decodeOpcode op else none

/-- `MemRead(addr, 2)` under `WORD_WRAP_AT_TOP` (20_memory.md R44, D6). -/
def wordRead (c : Config) (m : Memory) (addr : Addr) : Except FsmFault Addr :=
  if c.wordWrapAtTop = .fault ∧ addr = 0xFFFF#16 then .error (.wordAtTop addr) else .ok (m.readWord addr)

/-- `MemWrite(addr, 2, v)` under `WORD_WRAP_AT_TOP` (20_memory.md R46, D6): where the access is a bounds fault, no byte is
written (60_exceptions.md R173). A part of the memory's interface that no instruction uses (R46). -/
def wordWrite (c : Config) (m : Memory) (addr v : Addr) : Except FsmFault Memory :=
  if c.wordWrapAtTop = .fault ∧ addr = 0xFFFF#16 then .error (.wordAtTop addr) else .ok (m.writeWord addr v)

/-- `resolve(mode)` (41_addressing_modes.md R100 to R112), at a state whose PC is the address of the first operand byte.
`pc0` and `op` are the opcode's address and byte, for the fault of R101. -/
def resolve (c : Config) (mode : Mode) (pc0 : Addr) (op : Byte) (s : State) : Except FsmFault Resolved :=
  match mode with
  | .implied => .error (.core (.invalidAddressingRequest pc0 op))
  | .immediate | .relative => .ok (eaOperand s.pc)
  | .absolute => (wordRead c s.mem s.pc).map eaAbsolute
  | .absoluteX => (wordRead c s.mem s.pc).map fun a => eaAbsoluteX a s
  | .absoluteY => (wordRead c s.mem s.pc).map fun a => eaAbsoluteY a s
  | .indirect => (wordRead c s.mem s.pc).map eaIndirect
  | .zeroPage => .ok (eaZeroPage (s.byteAt s.pc))
  | .zeroPageX => .ok (eaZeroPageX (s.byteAt s.pc) s)
  | .zeroPageY => .ok (eaZeroPageY (s.byteAt s.pc) s)
  | .indirectX => .ok (eaIndirectX c (s.byteAt s.pc) s)
  | .indirectY => .ok (eaIndirectY c (s.byteAt s.pc) s)

/-- The page-cross penalty of loads and ADC (R130, R140). -/
def pageCost (r : Resolved) : Nat := if r.crossed then 1 else 0

/-- The extra cycles of BNE (R161), at a state whose PC is the next instruction: 0 not taken, 1 taken within the page, 2
taken across a page. -/
def branchCost (d : Byte) (s : State) : Nat :=
  if checkFlag .z s.p then 0 else if hiByte (branchTarget s.pc d) != hiByte s.pc then 2 else 1

/-- `JMP` under `WORD_WRAP_AT_TOP`: the pointer is a word read unless `JMP_IND_PAGE_WRAP` keeps it within its page
(R160; log 27). -/
def jumpRead (c : Config) (ea : Addr) (s : State) : Except FsmFault State :=
  if c.jmpIndPageWrap then .ok (jumpThrough c ea s) else (wordRead c s.mem ea).map s.setPc

/-- A handler that needs an address, given one or none (R171). -/
def withAddress (pc0 : Addr) (op : Byte) (r : Option Resolved) (h : Resolved → State × Nat) :
    Except FsmFault (State × Nat) :=
  match r with
  | some r => .ok (h r)
  | none => .error (.core (.invalidAddressingRequest pc0 op))

/-- `handler[mnemonic]` (R94): the new state and the extra cycles (70_reset_and_hazards.md R210), at a state whose PC is
the next instruction (R91). `r` is what the resolver gave, none in Implied mode (R93). -/
def handle (c : Config) (m : Mnemonic) (pc0 : Addr) (op : Byte) (r : Option Resolved) (s : State) :
    Except FsmFault (State × Nat) :=
  match m with
  | .lda => withAddress pc0 op r fun r => (loadA (s.byteAt r.ea) s, pageCost r)
  | .ldx => withAddress pc0 op r fun r => (loadX (s.byteAt r.ea) s, pageCost r)
  | .ldy => withAddress pc0 op r fun r => (loadY (s.byteAt r.ea) s, pageCost r)
  | .sta => withAddress pc0 op r fun r => (store r.ea s.a s, 0)
  | .stx => withAddress pc0 op r fun r => (store r.ea s.x s, 0)
  | .sty => withAddress pc0 op r fun r => (store r.ea s.y s, 0)
  | .adc => withAddress pc0 op r fun r => (addCarry (s.byteAt r.ea) s, pageCost r)
  | .cmp => withAddress pc0 op r fun r => (compare s.a (s.byteAt r.ea) s, 0)
  | .cpx => withAddress pc0 op r fun r => (compare s.x (s.byteAt r.ea) s, 0)
  | .cpy => withAddress pc0 op r fun r => (compare s.y (s.byteAt r.ea) s, 0)
  | .bne => withAddress pc0 op r fun r => (branchNotEqual (s.byteAt r.ea) s, branchCost (s.byteAt r.ea) s)
  | .jmp =>
    match r with
    | some r => (jumpRead c r.ea s).map fun t => (t, 0)
    | none => .error (.core (.invalidAddressingRequest pc0 op))
  | .inx => .ok (incX s, 0)
  | .iny => .ok (incY s, 0)
  | .dex => .ok (decX s, 0)
  | .dey => .ok (decY s, 0)
  | .tax => .ok (transferAX s, 0)
  | .hlt => .ok (halt s, 0)

/-- RESOLVE, ADVANCE and EXECUTE of R90, at the state `s` whose PC is past the opcode byte. -/
def resolveAndHandle (c : Config) (row : OpcodeRow) (pc0 : Addr) (op : Byte) (s : State) :
    Except FsmFault (State × Nat) :=
  if row.mode = .implied then handle c row.mnemonic pc0 op none s
  else
    match resolve c row.mode pc0 op s with
    | .ok r => handle c row.mnemonic pc0 op (some r) (s.advance row.mode.size)
    | .error f => .error f

/-- `step()` of R90 under the parameters `c`. -/
def fsmStep (c : Config) (s : State) : StepReport :=
  let op := s.byteAt s.pc
  match implementedRow c op with
  | none => .fault (.core (.unsupportedOpcode s.pc op))
  | some row =>
    match resolveAndHandle c row s.pc op (s.advance 1) with
    | .ok (t, extra) => .ok (row.base + extra) t
    | .error f => .fault f

/-- The cycle count that `step` returns to the host (R96), or none where it faults. -/
def stepCycles (s : State) : Option Nat :=
  match fsmStep chip s with
  | .ok n _ => some n
  | .fault _ => none

end Sys2Proof.Machine
end

