-- ==== Sys2Proof/Machine/HostPort.lean ====
section
/-! DEFINITION. What the host does to the core between steps (10_state.md R30; 70_reset_and_hazards.md R200 to R207) and
the free run of 40_fetch_decode_execute.md R98, R99. -/

namespace Sys2Proof.Machine

/-- `load(address, bytes)`: all of it, or `LoadOutOfRange` and nothing (20_memory.md R48; the bound 65536 and the
zero-length load are the spec's own D18 and D30; log 18, 26). -/
def load (address : Addr) (bytes : List Byte) (s : State) : Result :=
  if 65536 < address.toNat + bytes.length then .fault (.loadOutOfRange address bytes.length)
  else .next (s.setMem (s.mem.writeBytes address.toNat bytes))

/-- `loadExecutable(address, bytes)`: a load, then PC := address and RUN := 1; where the load faults, nothing (R203). -/
def loadExecutable (address : Addr) (bytes : List Byte) (s : State) : Result :=
  match load address bytes s with
  | .next t => .next ((t.setPc address).setRun true)
  | .fault f => .fault f
  | .refused r => .refused r

/-- The 8-bit registers the host reads and writes (R30). -/
inductive HostReg where
  | a | x | y | sp | p
  deriving DecidableEq, Repr

/-- A host read of a register. -/
def readReg : HostReg → State → Byte
  | .a, s => s.a
  | .x, s => s.x
  | .y, s => s.y
  | .sp, s => s.sp
  | .p, s => s.p

/-- A host write of a register: all bits given are stored (R30). -/
def writeReg : HostReg → Byte → State → State
  | .a, v, s => s.setA v
  | .x, v, s => s.setX v
  | .y, v, s => s.setY v
  | .sp, v, s => s.setSp v
  | .p, v, s => s.setP v

/-- The host's operations that can change the core. RUN has no write of its own (D25; log 21); reads of PC, RUN and
memory are the state's own fields and `State.byteAt`. -/
inductive HostOp where
  | reset
  | load (address : Addr) (bytes : List Byte)
  | loadExecutable (address : Addr) (bytes : List Byte)
  | writeReg (r : HostReg) (v : Byte)
  | writePc (v : Addr)
  | setFlag (f : Flag)
  | clearFlag (f : Flag)
  | step
  deriving DecidableEq, Repr

/-- What a host operation answers at a state. -/
def HostOp.perform : HostOp → State → Result
  | .reset, _ => .next State.reset
  | .load address bytes, s => Sys2Proof.Machine.load address bytes s
  | .loadExecutable address bytes, s => Sys2Proof.Machine.loadExecutable address bytes s
  | .writeReg r v, s => .next (Sys2Proof.Machine.writeReg r v s)
  | .writePc v, s => .next (s.setPc v)
  | .setFlag f, s => .next (s.setP (Sys2Proof.Machine.setFlag f s.p))
  | .clearFlag f, s => .next (s.setP (Sys2Proof.Machine.clearFlag f s.p))
  | .step, s => Sys2Proof.Machine.step s

/-- The state the host finds after an operation: after a fault, the state from before it (60_exceptions.md R173; D16,
log 16). -/
def stateAfter (s : State) : Result → State
  | .next t => t
  | .fault _ => s
  | .refused _ => s

/-! ### The free run (R98, R99) -/

/-- How `run` returns. -/
inductive RunEnd where
  | halted
  | faulted (f : Fault)
  deriving DecidableEq, Repr

/-- `run()` from `s` returns `e` and leaves `t`: RUN is tested before every step, the first included (R98). There is no
iteration cap (R99), so this is a relation; where it has no answer the run does not end. -/
inductive RunsTo : State → RunEnd → State → Prop where
  | halted {s : State} (h : s.run = false) : RunsTo s .halted s
  | faulted {s : State} {f : Fault} (h : s.run = true) (hf : step s = .fault f) : RunsTo s (.faulted f) s
  | stepped {s t u : State} {e : RunEnd} (h : s.run = true) (hs : step s = .next t) (hr : RunsTo t e u) : RunsTo s e u

/-- `run()` from `s` never returns (R99). -/
def Diverges (s : State) : Prop :=
  ∃ f : Nat → State, f 0 = s ∧ ∀ n, (f n).run = true ∧ step (f n) = .next (f (n + 1))

/-- An executor of `run` for at most `n` steps; none where it has not returned by then (R99: the fuel is the executor's,
not the machine's). -/
def runFor : Nat → State → Option (RunEnd × State)
  | 0, s => if s.run then none else some (.halted, s)
  | n + 1, s =>
    if s.run then
      match step s with
      | .next t => runFor n t
      | .fault f => some (.faulted f, s)
      | .refused _ => none
    else some (.halted, s)

end Sys2Proof.Machine
end

