-- ==== Sys2Proof/Safety.lean ====
section
/-! DEFINITION. What counts as a safe run, and the terms the claims are stated in: registers, flags and memory before and
after an instruction, in bits and numbers of their own and not in the meanings' functions. -/

namespace Sys2Proof.Safety

open Sys2Proof.Machine

/-! ### Safe runs -/

/-- A step that does not end in a fault. -/
def SafeStep (s : State) : Prop := ∃ t, step s = .next t

/-- The states a number of steps leads to. -/
inductive Reaches : State → State → Prop where
  | refl (s : State) : Reaches s s
  | tail {s t u : State} (h : Reaches s t) (hs : step t = .next u) : Reaches s u

/-- A run in which no step faults: every byte fetched as an opcode is in the table (60_exceptions.md R178). -/
def SafeRun (s : State) : Prop := ∀ t, Reaches s t → SafeStep t

/-- What every step keeps (10_state.md R13, R19, R20; log 22): the memory in its canonical form, SP, and the four status
bits I, D, B and U. -/
def Kept (sp stored : Byte) (s : State) : Prop := s.mem.wf = true ∧ s.sp = sp ∧ s.p &&& 0x3C#8 = stored

/-! ### Before and after -/

/-- The bytes at PC and on (mod 65536) are `bytes`. -/
def ProgramAt (s : State) (bytes : List Byte) : Prop :=
  ∀ (k : Nat) (h : k < bytes.length), s.byteAt (s.pc + BitVec.ofNat 16 k) = bytes[k]

/-- A, X and Y after an instruction that leaves SP and RUN alone. -/
def Regs (s t : State) (a x y : Byte) : Prop :=
  t.a = a ∧ t.x = x ∧ t.y = y ∧ t.sp = s.sp ∧ t.run = s.run

/-- PC moved past an instruction of `n` bytes, mod 65536. -/
def PastBytes (s t : State) (n : Nat) : Prop := t.pc.toNat = (s.pc.toNat + n) % 65536

/-- Every byte of memory reads as before. -/
def SameMem (s t : State) : Prop := ∀ k : Addr, t.byteAt k = s.byteAt k

/-- The byte at `ea` reads as `v` and every other byte as before. -/
def OneByteStored (s t : State) (ea : Addr) (v : Byte) : Prop :=
  t.byteAt ea = v ∧ ∀ k : Addr, k ≠ ea → t.byteAt k = s.byteAt k

/-- The status register `q` has C, Z, V and N as given and I, D, B and U as in `p` (bit numbers of 10_state.md R17). -/
def FlagsAre (p q : Byte) (c z v n : Bool) : Prop :=
  q.getLsbD 0 = c ∧ q.getLsbD 1 = z ∧ q.getLsbD 6 = v ∧ q.getLsbD 7 = n
    ∧ ∀ k, 2 ≤ k → k ≤ 5 → q.getLsbD k = p.getLsbD k

/-- Z and N follow the byte `v`; C, V, I, D, B and U are as in `p`. -/
def OnlyNZ (p q v : Byte) : Prop :=
  FlagsAre p q (p.getLsbD 0) (decide (v = 0)) (p.getLsbD 6) (decide (128 ≤ v.toNat))

/-- The outcome is a next state in which A, X and Y are as given, Z and N follow `v`, PC is `n` bytes on, and nothing else
has changed. -/
def WritesRegs (s : State) (o : Result) (a x y v : Byte) (n : Nat) : Prop :=
  ∃ t, o = .next t ∧ Regs s t a x y ∧ OnlyNZ s.p t.p v ∧ PastBytes s t n ∧ SameMem s t

/-- The outcome is a next state in which the byte at `ea` is `v`, PC is `n` bytes on, and nothing else has changed. -/
def StoresByte (s : State) (o : Result) (ea : Addr) (v : Byte) (n : Nat) : Prop :=
  ∃ t, o = .next t ∧ Regs s t s.a s.x s.y ∧ t.p = s.p ∧ PastBytes s t n ∧ OneByteStored s t ea v

/-- The carry flag of a state as a number. -/
def carryIn (s : State) : Nat := (s.p.getLsbD 0).toNat

/-- The outcome is a next state in which A is `A + m + C` mod 256, C is its carry, V its signed overflow, Z and N follow
the sum, PC is `n` bytes on, and nothing else has changed. -/
def AddsCarry (s : State) (o : Result) (m : Byte) (n : Nat) : Prop :=
  ∃ t, o = .next t ∧ t.a.toNat = (s.a.toNat + m.toNat + carryIn s) % 256 ∧ Regs s t t.a s.x s.y
    ∧ FlagsAre s.p t.p (decide (256 ≤ s.a.toNat + m.toNat + carryIn s)) (decide (t.a = 0))
        (decide (s.a.toInt + m.toInt + (carryIn s : Int) < -128 ∨ 127 < s.a.toInt + m.toInt + (carryIn s : Int)))
        (decide (128 ≤ t.a.toNat))
    ∧ PastBytes s t n ∧ SameMem s t

/-- The outcome is a next state in which C, Z and N are those of comparing `r` with `m`, PC is `n` bytes on, and nothing
else has changed. -/
def Compares (s : State) (o : Result) (r m : Byte) (n : Nat) : Prop :=
  ∃ t, o = .next t ∧ Regs s t s.a s.x s.y
    ∧ FlagsAre s.p t.p (decide (m.toNat ≤ r.toNat)) (decide (r = m)) (s.p.getLsbD 6)
        (decide (128 ≤ (r.toNat + 256 - m.toNat) % 256))
    ∧ PastBytes s t n ∧ SameMem s t

/-- The byte of memory at a number, and the little-endian word at a number mod 65536, as numbers. -/
def byteNat (s : State) (k : Nat) : Nat := (s.byteAt (BitVec.ofNat 16 k)).toNat

def wordNat (s : State) (k : Nat) : Nat := byteNat s k + 256 * byteNat s (k + 1)

/-! ### What an instruction reads and writes -/

/-- The outcome with `f` applied to its next state. -/
def mapNext (f : State → State) : Result → Result
  | .next t => .next (f t)
  | .fault r => .fault r
  | .refused r => .refused r

/-- Some run of the instruction changes what `get` gives. -/
def Writes {α : Type} (get : State → α) (i : Instr) : Prop := ∃ s t, exec i s = .next t ∧ get t ≠ get s

/-- The instruction's outcome does not depend on a piece of state written by `set`: changing it before changes it after and
nothing else, or changes nothing at all. -/
def Ignores {α : Type} (set : State → α → State) (i : Instr) : Prop :=
  (∀ s v, exec i (set s v) = mapNext (fun t => set t v) (exec i s)) ∨ (∀ s v, exec i (set s v) = exec i s)

/-- The bit number of a flag (10_state.md R17). -/
def flagBit : Flag → Nat
  | .c => 0
  | .z => 1
  | .i => 2
  | .d => 3
  | .b => 4
  | .u => 5
  | .v => 6
  | .n => 7

/-- The twelve mnemonics that assign Z and N (10_state.md R18). -/
def nzWriters : List Mnemonic := [.lda, .ldx, .ldy, .adc, .cmp, .cpx, .cpy, .inx, .iny, .dex, .dey, .tax]

/-- The mnemonics that assign each flag (10_state.md R18). -/
def flagWriters : Flag → List Mnemonic
  | .c => [.adc, .cmp, .cpx, .cpy]
  | .z => nzWriters
  | .n => nzWriters
  | .v => [.adc]
  | .i => []
  | .d => []
  | .b => []
  | .u => []

/-! ### What a step and a load leave for the next fetch -/

/-- The address and the byte that an instruction stores, none where it stores nothing (43_load_store.md R133 to R135). -/
def storedAt : Instr → State → Option (Addr × Byte)
  | .staZp d, s => some ((eaZeroPage d).ea, s.a)
  | .staZpX d, s => some ((eaZeroPageX d s).ea, s.a)
  | .staAbs a, s => some ((eaAbsolute a).ea, s.a)
  | .staAbsX a, s => some ((eaAbsoluteX a s).ea, s.a)
  | .staAbsY a, s => some ((eaAbsoluteY a s).ea, s.a)
  | .staIndX d, s => some ((eaIndirectX chip d s).ea, s.a)
  | .staIndY d, s => some ((eaIndirectY chip d s).ea, s.a)
  | .stxZp d, s => some ((eaZeroPage d).ea, s.x)
  | .stxZpY d, s => some ((eaZeroPageY d s).ea, s.x)
  | .stxAbs a, s => some ((eaAbsolute a).ea, s.x)
  | .styZp d, s => some ((eaZeroPage d).ea, s.y)
  | .styZpX d, s => some ((eaZeroPageX d s).ea, s.y)
  | .styAbs a, s => some ((eaAbsolute a).ea, s.y)
  | .ldaImm _, _ | .ldaZp _, _ | .ldaZpX _, _ | .ldaAbs _, _ | .ldaAbsX _, _ | .ldaAbsY _, _ | .ldaIndX _, _
  | .ldaIndY _, _ | .ldxImm _, _ | .ldxZp _, _ | .ldxZpY _, _ | .ldxAbs _, _ | .ldxAbsY _, _ | .ldyImm _, _
  | .ldyZp _, _ | .ldyZpX _, _ | .ldyAbs _, _ | .ldyAbsX _, _ | .adcImm _, _ | .adcZp _, _ | .adcZpX _, _
  | .adcAbs _, _ | .adcAbsX _, _ | .adcAbsY _, _ | .adcIndX _, _ | .adcIndY _, _ | .cmpImm _, _ | .cmpZp _, _
  | .cmpZpX _, _ | .cmpAbs _, _ | .cmpAbsX _, _ | .cmpAbsY _, _ | .cmpIndX _, _ | .cmpIndY _, _
  | .cpxImm _, _ | .cpxZp _, _ | .cpxAbs _, _ | .cpyImm _, _ | .cpyZp _, _ | .cpyAbs _, _ | .inx, _ | .iny, _
  | .dex, _ | .dey, _ | .tax, _ | .jmp _, _ | .bne _, _ | .hlt, _ => none

/-- The three bytes a step looks at from `pc` on, mod 65536, where each address holds what `read` says. -/
def bytesFrom (read : Addr → Byte) (pc : Addr) : List Byte := [read pc, read (pc + 1#16), read (pc + 2#16)]

/-- What a state's memory holds once `v` is stored at `ea`. -/
def afterStore (s : State) (ea : Addr) (v : Byte) (k : Addr) : Byte := if k = ea then v else s.byteAt k

/-- What a state's memory holds once `bytes` are loaded from `address` on. -/
def afterLoad (s : State) (address : Addr) (bytes : List Byte) (k : Addr) : Byte :=
  if address.toNat ≤ k.toNat then bytes.getD (k.toNat - address.toNat) (s.byteAt k) else s.byteAt k

end Sys2Proof.Safety
end

