-- ==== Sys2Proof/Certificates/Slice0/Obligations.lean ====
section
/-! DEFINITION. The statements for the provers. Each docstring names the rules of spec/ it rests on, and the log entry
where it rests on a choice the spec marks as its own. -/

open Sys2Proof Sys2Proof.Machine Sys2Proof.Safety

/-! ### Decoding and stepping -/

/-- When the bytes at PC decode to an instruction, or are its encoding, `step` is `exec` of it at that state, and
`step` adds nothing around `exec`, which itself moves PC (40 R90; that a fetch wraps at 0xFFFF and that the
instruction carries its operand: log 1, 7, 23). -/
def Obligations.StepRunsDecodedInstruction : Prop :=
  ∀ s : State,
    (∀ i rest, decode (fetchBytes s) = .ok (i, rest) → step s = exec i s)
      ∧ (∀ i : Instr, ProgramAt s (encode i) → step s = exec i s)

/-- For every well-formed instruction, with every operand, decoding its encoding gives it back and leaves what follows
(30 R70 to R74). -/
def Obligations.DecodeOfEncode : Prop :=
  ∀ (i : Instr) (rest : List Byte), i.wf = true → decode (encode i ++ rest) = .ok (i, rest)

/-- Bytes that decode are the encoding of the well-formed instruction they decode to, followed by what is left over: no
bit of them is ignored, and no two encodings mean the same instruction (30 R71, R77). -/
def Obligations.EncodeOfDecode : Prop :=
  ∀ (bytes : List Byte) (i : Instr) (rest : List Byte),
    decode bytes = .ok (i, rest) → bytes = encode i ++ rest ∧ i.wf = true

/-- A few words written from 30 R81 and 95 section 2 decode to what they stand for (byte values: log 3). -/
def Obligations.WrittenBytesDecode : Prop :=
  decode [0xB1, 0x04] = .ok (.ldaIndY 0x04, []) ∧ decode [0xB6, 0x10] = .ok (.ldxZpY 0x10, [])
    ∧ decode [0xBC, 0xFF, 0x12] = .ok (.ldyAbsX 0x12FF, []) ∧ decode [0x8D, 0x20, 0x00] = .ok (.staAbs 0x0020, [])
    ∧ decode [0x69, 0xF0] = .ok (.adcImm 0xF0, []) ∧ decode [0xDD, 0xF0, 0x12] = .ok (.cmpAbsX 0x12F0, [])
    ∧ decode [0xE8] = .ok (.inx, []) ∧ decode [0x6C, 0x34, 0x12] = .ok (.jmp 0x1234, [])
    ∧ decode [0xD0, 0xFD] = .ok (.bne 0xFD, []) ∧ decode [0x00] = .ok (.hlt, [])
    ∧ decode [0xEA] = .error (.unsupportedOpcode 0xEA)

/-- 30 R73, R79, 60 R170: the length of what is decoded is 1 plus the size of the mode of the opcode byte, and nothing
else affects it; a byte with no row faults in the step before any length is used, and records the unchanged PC and the
byte (D15; log 15). -/
def Obligations.LengthFromOpcodeByte : Prop :=
  (∀ (bytes : List Byte) (i : Instr) (rest : List Byte), decode bytes = .ok (i, rest) →
      ∃ op tail row, bytes = op :: tail ∧ decodeOpcode op = some row ∧ i.mnemonic = row.mnemonic ∧ i.mode = row.mode
        ∧ bytes.length = 1 + row.mode.size + rest.length)
    ∧ (∀ s : State, decodeOpcode (s.byteAt s.pc) = none →
        step s = .fault (.unsupportedOpcode s.pc (s.byteAt s.pc)))

/-- 30 R80: whatever the operand bytes are, an opcode byte with a row decodes, to the mnemonic and mode of the row. -/
def Obligations.OperandBytesAlwaysAccepted : Prop :=
  ∀ (op d e : Byte) (row : OpcodeRow), decodeOpcode op = some row →
    ∃ i rest, decode [op, d, e] = .ok (i, rest) ∧ i.mnemonic = row.mnemonic ∧ i.mode = row.mode

/-- 30 R79, 40 R97, 60 R170, R178: a step ends in a next state at each of the 61 bytes of R77 and in `UnsupportedOpcode`,
with the unchanged PC and the byte, at each of the 195 others, and in nothing else. The set of bytes is the default of
`IMPLEMENTED_OPCODES` (log 2, 3, 5) and the recorded values are D15 (log 15). -/
def Obligations.UnsupportedExactlyOutsideTable : Prop :=
  (∀ s : State,
      (s.byteAt s.pc ∈ Config.tableOpcodes → ∃ t, step s = .next t)
        ∧ (s.byteAt s.pc ∉ Config.tableOpcodes → step s = .fault (.unsupportedOpcode s.pc (s.byteAt s.pc))))
    ∧ Config.tableOpcodes.Nodup ∧ Config.tableOpcodes.length = 61
    ∧ ((List.range 256).filter fun n => !Config.tableOpcodes.contains (BitVec.ofNat 8 n)).length = 195

/-! ### The fetch-decode-execute machine and its parameters -/

/-- 40 R90 to R94 (log 1, 2, 6, 8, 9): at the parameters of `chip`, the machine that decodes to a triple, resolves the
address from memory and calls the mnemonic's handler makes exactly the transition of `step`, and faults exactly when
it does. -/
def Obligations.StepIsTheFsmStep : Prop :=
  ∀ s : State,
    (∀ t, step s = .next t ↔ ∃ n, fsmStep chip s = .ok n t)
      ∧ (∀ f, step s = .fault f ↔ fsmStep chip s = .fault (.core f))

/-- 60 R171, 40 R93, 41 R101 (log 15, 30): whatever the parameters, no step raises `InvalidAddressingRequest`; the
resolver called for Implied mode raises it, and so does a handler that needs an address and gets none. -/
def Obligations.InvalidAddressingUnreachable : Prop :=
  (∀ (c : Config) (s : State) (pc : Addr) (op : Byte), fsmStep c s ≠ .fault (.core (.invalidAddressingRequest pc op)))
    ∧ (∀ (c : Config) (pc : Addr) (op : Byte) (s : State),
        resolve c .implied pc op s = .error (.core (.invalidAddressingRequest pc op)))
    ∧ (∀ (c : Config) (m : Mnemonic) (pc : Addr) (op : Byte) (s : State),
        m ∉ [Mnemonic.inx, .iny, .dex, .dey, .tax, .hlt] →
          handle c m pc op none s = .error (.core (.invalidAddressingRequest pc op)))

/-- D6 (20 R44, R46; log 6, 27): under `WORD_WRAP_AT_TOP` = fault, and under no other parameter, a word read or
written at 0xFFFF is a bounds fault that names 0xFFFF. A step ends in it exactly where its opcode byte is implemented
and either its two operand bytes start at 0xFFFF, whatever the two-byte form, or it is a JMP whose pointer is 0xFFFF
and `JMP_IND_PAGE_WRAP` is false (which jump pointers count is the model's choice, log 27). -/
def Obligations.TopWordFaultOnlyByParameter : Prop :=
  (∀ (c : Config) (s : State) (addr : Addr), fsmStep c s = .fault (.wordAtTop addr) ↔
      c.wordWrapAtTop = .fault ∧ addr = 0xFFFF ∧ s.byteAt s.pc ∈ c.implementedOpcodes
        ∧ ∃ row, decodeOpcode (s.byteAt s.pc) = some row
          ∧ ((row.mode.size = 2 ∧ s.pc = 0xFFFE)
            ∨ (row.mnemonic = .jmp ∧ c.jmpIndPageWrap = false ∧ s.mem.readWord (s.pc + 1#16) = 0xFFFF)))
    ∧ ∀ (c : Config) (m : Memory) (addr v : Addr),
      (c.wordWrapAtTop = .fault ∧ addr = 0xFFFF →
          wordRead c m addr = .error (.wordAtTop addr) ∧ wordWrite c m addr v = .error (.wordAtTop addr))
        ∧ (c.wordWrapAtTop = .wrap ∨ addr ≠ 0xFFFF →
          wordRead c m addr = .ok (m.readWord addr) ∧ wordWrite c m addr v = .ok (m.writeWord addr v))

/-- D1, 30 R78 (log 2): a byte outside `IMPLEMENTED_OPCODES` is unsupported, and narrowing the set changes nothing at the
bytes that stay in it. -/
def Obligations.NarrowerOpcodeSetOnlyFaults : Prop :=
  ∀ (c : Config) (s : State),
    (s.byteAt s.pc ∉ c.implementedOpcodes →
        fsmStep c s = .fault (.core (.unsupportedOpcode s.pc (s.byteAt s.pc))))
      ∧ (s.byteAt s.pc ∈ c.implementedOpcodes → s.byteAt s.pc ∈ Config.tableOpcodes →
        fsmStep c s = fsmStep { c with implementedOpcodes := Config.tableOpcodes } s)

/-- D8, D9, 41 R111, 46 R160 (log 8, 9): the two pointer-wrap parameters matter only for a zero-page pointer at 0xFF
and a jump pointer whose low address byte is 0xFF; there the high byte comes from the next page by default and from
the start of the same page otherwise. For both values of `JMP_IND_PAGE_WRAP`, a step at an implemented JMP whose word
reads do not fault at the top of memory (log 6, 27) takes the base cycles and moves PC to that word, and changes
nothing else. What `ZP_POINTER_WRAP` does in the machine is ResolverPointerModes. -/
def Obligations.PointerWrapParameters : Prop :=
  (∀ m : Memory,
      (∀ z : Byte, z ≠ 0xFF → zpPointer true m z = zpPointer false m z)
        ∧ zpPointer false m 0xFF = joinBytes (m.readByte 0x00FF) (m.readByte 0x0100)
        ∧ zpPointer true m 0xFF = joinBytes (m.readByte 0x00FF) (m.readByte 0x0000)
        ∧ (∀ ea : Addr, loByte ea ≠ 0xFF → jumpTarget true m ea = jumpTarget false m ea)
        ∧ (∀ ea : Addr, loByte ea = 0xFF →
            jumpTarget false m ea = joinBytes (m.readByte ea) (m.readByte (ea + 1#16))
              ∧ jumpTarget true m ea = joinBytes (m.readByte ea) (m.readByte (ea - 0xFF#16))))
    ∧ ∀ (c : Config) (s : State) (row : OpcodeRow),
      let pointer := s.mem.readWord (s.pc + 1#16)
      decodeOpcode (s.byteAt s.pc) = some row → row.mnemonic = .jmp → s.byteAt s.pc ∈ c.implementedOpcodes →
        (c.wordWrapAtTop = .wrap ∨ (s.pc ≠ 0xFFFE ∧ (c.jmpIndPageWrap = true ∨ pointer ≠ 0xFFFF))) →
        ∃ t, fsmStep c s = .ok row.base t ∧ Regs s t s.a s.x s.y ∧ t.p = s.p ∧ SameMem s t
          ∧ t.pc = joinBytes (s.byteAt pointer)
              (s.byteAt (if c.jmpIndPageWrap = true ∧ loByte pointer = 0xFF then pointer - 0xFF#16 else pointer + 1#16))

/-- 40 R96 (D3, D19; log 4, 14): a step returns 2 to 7 cycles. -/
def Obligations.CycleCountBounds : Prop :=
  ∀ (c : Config) (s t : State) (n : Nat), fsmStep c s = .ok n t → 2 ≤ n ∧ n ≤ 7

/-- 70 R210 (D3, D24; log 4, 20): the cycle count is the row's base and the extra of the mnemonic: 1 for a load or ADC
whose resolver reports a page crossing, which only Absolute-X, Absolute-Y and Indirect-Y can; 0, 1 or 2 for BNE not taken,
taken within the page of the next instruction, or taken out of it; 0 for every other mnemonic. -/
def Obligations.CycleCounts : Prop :=
  ∀ (s t : State) (n : Nat) (row : OpcodeRow), fsmStep chip s = .ok n t → decodeOpcode (s.byteAt s.pc) = some row →
    (row.mnemonic ∈ [Mnemonic.lda, .ldx, .ldy, .adc] →
        ∃ r, resolve chip row.mode s.pc (s.byteAt s.pc) (s.advance 1) = .ok r
          ∧ n = row.base + (if r.crossed then 1 else 0)
          ∧ (r.crossed = true → row.mode ∈ [Mode.absoluteX, .absoluteY, .indirectY]))
      ∧ (row.mnemonic = .bne →
        n = row.base + (if s.p.getLsbD 1 then 0 else if t.pc.toNat / 256 = (s.pc + 2#16).toNat / 256 then 1 else 2))
      ∧ (row.mnemonic ∉ [Mnemonic.lda, .ldx, .ldy, .adc, .bne] → n = row.base)

/-! ### Memory -/

/-- R40, R43, R45: a byte written is read back, every other address reads as before, for all 65536 addresses, over every
memory in canonical form. -/
def Obligations.ReadAfterWrite : Prop :=
  ∀ (m : Memory) (addr k : Addr) (v : Byte), m.wf = true →
    (m.writeByte addr v).readByte k = if k = addr then v else m.readByte k

/-- 20 R44, R46 (D6; log 6): a word is the byte at `addr` low and the byte at the next address mod 65536 high, and a word
written is read back and changes no third byte. -/
def Obligations.WordReadAndWrite : Prop :=
  ∀ (m : Memory) (addr v : Addr),
    (m.readWord addr).toNat
        = (m.readByte addr).toNat + 256 * (m.readByte (BitVec.ofNat 16 ((addr.toNat + 1) % 65536))).toNat
      ∧ (m.wf = true → (m.writeWord addr v).readWord addr = v
        ∧ ∀ k : Addr, k ≠ addr → k ≠ addr + 1#16 → (m.writeWord addr v).readByte k = m.readByte k)

/-- 20 R40, R41 (log 22): two memories in canonical form that read alike at every address are equal data. -/
def Obligations.EqualReadsEqualMemories : Prop :=
  ∀ m m' : Memory, m.wf = true → m'.wf = true → (∀ k : Addr, m.readByte k = m'.readByte k) → m = m'

/-- R50: after a successful load each of its addresses reads as the byte loaded there, until something writes that cell:
also after any number of writes to other cells. -/
def Obligations.LoadRoundTrip : Prop :=
  ∀ (s t : State) (address : Addr) (bytes : List Byte), s.mem.wf = true → load address bytes s = .next t →
    ∀ (i : Nat) (h : i < bytes.length),
      t.byteAt (address + BitVec.ofNat 16 i) = bytes[i]
        ∧ ∀ writes : List (Addr × Byte), (∀ w ∈ writes, w.1 ≠ address + BitVec.ofNat 16 i) →
            (writes.foldl (fun m w => m.writeByte w.1 w.2) t.mem).readByte (address + BitVec.ofNat 16 i) = bytes[i]

/-- 20 R48, R49 (D15, D18, D30; log 15, 18, 26): a load succeeds iff it stays inside memory; it changes no byte
outside it, no register and not RUN; a load of nothing changes nothing; otherwise it is `LoadOutOfRange`. -/
def Obligations.LoadBoundAndFrame : Prop :=
  ∀ (s : State) (address : Addr) (bytes : List Byte), s.mem.wf = true →
    (address.toNat + bytes.length ≤ 65536 →
        ∃ t, load address bytes s = .next t ∧ Regs s t s.a s.x s.y ∧ t.p = s.p ∧ t.pc = s.pc
          ∧ ∀ k : Addr, (k.toNat < address.toNat ∨ address.toNat + bytes.length ≤ k.toNat) → t.byteAt k = s.byteAt k)
      ∧ (65536 < address.toNat + bytes.length →
        load address bytes s = .fault (.loadOutOfRange address bytes.length))
      ∧ load address [] s = .next s

/-- 70 R203 (D15, D18, D30; log 15, 18, 26): `loadExecutable` loads its bytes, sets PC to the address and RUN to 1 and
changes no other register; where the load is out of range it only faults. -/
def Obligations.LoadExecutableEffect : Prop :=
  ∀ (s : State) (address : Addr) (bytes : List Byte), s.mem.wf = true →
    (address.toNat + bytes.length ≤ 65536 →
        ∃ t, loadExecutable address bytes s = .next t ∧ t.pc = address ∧ t.run = true ∧ t.a = s.a ∧ t.x = s.x
          ∧ t.y = s.y ∧ t.sp = s.sp ∧ t.p = s.p
          ∧ (∀ (i : Nat) (h : i < bytes.length), t.byteAt (address + BitVec.ofNat 16 i) = bytes[i])
          ∧ ∀ k : Addr, (k.toNat < address.toNat ∨ address.toNat + bytes.length ≤ k.toNat) → t.byteAt k = s.byteAt k)
      ∧ (65536 < address.toNat + bytes.length →
        loadExecutable address bytes s = .fault (.loadOutOfRange address bytes.length))

/-! ### The status register and the ALU -/

/-- R17, R22, R23 (and the formula of R24): each flag has its bit and mask; `checkFlag` reads that bit, `setFlag` sets it and
`clearFlag` clears it, and the other seven bits keep their values. -/
def Obligations.FlagHelpers : Prop :=
  ∀ (f : Flag) (p : Byte),
    f.mask.toNat = 2 ^ flagBit f ∧ checkFlag f p = p.getLsbD (flagBit f)
      ∧ ∀ k, k < 8 →
          (setFlag f p).getLsbD k = (decide (k = flagBit f) || p.getLsbD k)
            ∧ (clearFlag f p).getLsbD k = (!decide (k = flagBit f) && p.getLsbD k)

/-- R120: `setNZ(v)` assigns Z and N from `v` and no other bit; the two are never both 1, and both are 0 for 0x01 to
0x7F. -/
def Obligations.SetNZBits : Prop :=
  ∀ v p : Byte,
    OnlyNZ p (setNZ v p) v
      ∧ ¬((setNZ v p).getLsbD 1 = true ∧ (setNZ v p).getLsbD 7 = true)
      ∧ (1 ≤ v.toNat → v.toNat ≤ 0x7F → (setNZ v p).getLsbD 1 = false ∧ (setNZ v p).getLsbD 7 = false)

/-- 42 R121 (D10; log 10): the sum is `a + m + cin` mod 256, and the carry is that of the whole three-term sum. -/
def Obligations.AdcSumAndCarry : Prop :=
  ∀ (a m : Byte) (cin : Bool),
    (adc8 a m cin).sum.toNat + 256 * (adc8 a m cin).carry.toNat = a.toNat + m.toNat + cin.toNat

/-- 42 R126: the overflow output is 1 exactly when `a` and `m` have the same bit 7 and the sum has the other, and exactly
when the signed three-term sum is outside -128 to 127. -/
def Obligations.AdcOverflowIsSigned : Prop :=
  ∀ (a m : Byte) (cin : Bool),
    ((adc8 a m cin).overflow = true ↔ a.msb = m.msb ∧ (adc8 a m cin).sum.msb ≠ a.msb)
      ∧ ((adc8 a m cin).overflow = true ↔
        a.toInt + m.toInt + (cin.toNat : Int) < -128 ∨ 127 < a.toInt + m.toInt + (cin.toNat : Int))

/-- R122: the difference is `r - m` mod 256 and the carry says whether `r >= m` unsigned. -/
def Obligations.CompareDifferenceAndCarry : Prop :=
  ∀ r m : Byte,
    ((cmp8 r m).diff.toNat : Int) = ((r.toNat : Int) - m.toNat) % 256
      ∧ ((cmp8 r m).carry = true ↔ m.toNat ≤ r.toNat)

/-- R123: increment and decrement wrap at 8 bits. -/
def Obligations.IncDecWrapAt8Bits : Prop :=
  ∀ v : Byte,
    (inc8 v).toNat = (v.toNat + 1) % 256 ∧ ((dec8 v).toNat : Int) = ((v.toNat : Int) - 1) % 256
      ∧ inc8 0xFF = 0x00 ∧ dec8 0x00 = 0xFF

/-! ### Whole-machine rules: what is read and written -/

/-- R10: A is 8 bits with no alias and no hardwired bit; LDA and ADC write it and no other instruction; STA, ADC, CMP and
TAX read it and no other instruction. -/
def Obligations.AccumulatorUse : Prop :=
  (∀ i : Instr, Writes State.a i ↔ i.mnemonic ∈ [Mnemonic.lda, .adc])
    ∧ (∀ i : Instr, ¬Ignores State.setA i ↔ i.mnemonic ∈ [Mnemonic.sta, .adc, .cmp, .tax])
    ∧ ∀ (s : State) (v : Byte), Regs s (writeReg .a v s) v s.x s.y ∧ (writeReg .a v s).p = s.p
        ∧ (writeReg .a v s).pc = s.pc ∧ (writeReg .a v s).mem = s.mem

/-- R11: X is 8 bits with no alias and no hardwired bit; LDX, INX, DEX and TAX write it; STX, CPX, INX, DEX and the modes
Zero-Page-X, Absolute-X and Indirect-X read it; nothing else does either. -/
def Obligations.IndexXUse : Prop :=
  (∀ i : Instr, Writes State.x i ↔ i.mnemonic ∈ [Mnemonic.ldx, .inx, .dex, .tax])
    ∧ (∀ i : Instr, ¬Ignores State.setX i ↔
        i.mnemonic ∈ [Mnemonic.stx, .cpx, .inx, .dex] ∨ i.mode ∈ [Mode.zeroPageX, .absoluteX, .indirectX])
    ∧ ∀ (s : State) (v : Byte), Regs s (writeReg .x v s) s.a v s.y ∧ (writeReg .x v s).p = s.p
        ∧ (writeReg .x v s).pc = s.pc ∧ (writeReg .x v s).mem = s.mem

/-- R12: Y is 8 bits with no alias and no hardwired bit; LDY, INY and DEY write it; STY, CPY, INY, DEY and the modes
Zero-Page-Y, Absolute-Y and Indirect-Y read it; nothing else does either. -/
def Obligations.IndexYUse : Prop :=
  (∀ i : Instr, Writes State.y i ↔ i.mnemonic ∈ [Mnemonic.ldy, .iny, .dey])
    ∧ (∀ i : Instr, ¬Ignores State.setY i ↔
        i.mnemonic ∈ [Mnemonic.sty, .cpy, .iny, .dey] ∨ i.mode ∈ [Mode.zeroPageY, .absoluteY, .indirectY])
    ∧ ∀ (s : State) (v : Byte), Regs s (writeReg .y v s) s.a s.x v ∧ (writeReg .y v s).p = s.p
        ∧ (writeReg .y v s).pc = s.pc ∧ (writeReg .y v s).mem = s.mem

/-- 10 R13, R30 (log 21, 25): no instruction reads or writes SP; it changes only at reset and by host write. -/
def Obligations.StackPointerUntouched : Prop :=
  (∀ (i : Instr) (s : State) (v : Byte), exec i (s.setSp v) = mapNext (fun t => t.setSp v) (exec i s))
    ∧ ∀ (op : HostOp) (s t : State), op.perform s = .next t → t.sp ≠ s.sp →
        op = .reset ∨ ∃ v, op = .writeReg .sp v

/-- 10 R18, R19 (D28, D29; log 24, 25): each flag is assigned by the mnemonics of R18 and by no other, I, D, B and U
by none; C is read by ADC only and Z by BNE only (with a displacement of 0 a branch goes to the same place either
way), and no other flag is read. -/
def Obligations.FlagUse : Prop :=
  (∀ (f : Flag) (i : Instr), Writes (fun s => checkFlag f s.p) i ↔ i.mnemonic ∈ flagWriters f)
    ∧ (∀ (f : Flag) (i : Instr), ¬Ignores (fun s b => s.setP (assignFlag f b s.p)) i →
        (f = .c ∧ i.mnemonic = .adc) ∨ (f = .z ∧ i.mnemonic = .bne))
    ∧ (∀ i : Instr, i.mnemonic = .adc → ¬Ignores (fun s b => s.setP (assignFlag .c b s.p)) i)
    ∧ ∀ d : Byte, d ≠ 0 → ¬Ignores (fun s b => s.setP (assignFlag .z b s.p)) (.bne d)

/-- 10 R25: RUN is set only by `loadExecutable`, which sets it; it is cleared only by HLT and reset, which clear it;
`step` does not read it; `run` does: a run of a core whose RUN is 0 ends at once. It is not a bit of P. The clause on
`step` is D17 (log 17), "only by `loadExecutable`" rests on D25 (log 21, unsafe), RUN = 0 at reset is D13 (log 13). -/
def Obligations.RunFlagUse : Prop :=
  (∀ (op : HostOp) (s t : State), op.perform s = .next t →
      (s.run = false → t.run = true → ∃ address bytes, op = .loadExecutable address bytes)
        ∧ (s.run = true → t.run = false →
          op = .reset ∨ (op = .step ∧ ∃ rest, decode (fetchBytes s) = .ok (.hlt, rest))))
    ∧ (∀ (address : Addr) (bytes : List Byte) (s t : State),
        HostOp.perform (.loadExecutable address bytes) s = .next t → t.run = true)
    ∧ (∀ s : State, ∃ t, exec .hlt s = .next t ∧ t.run = false) ∧ State.reset.run = false
    ∧ (∀ (s : State) (v : Bool), step (s.setRun v) = step s ∨ step (s.setRun v) = mapNext (fun t => t.setRun v) (step s))
    ∧ (∀ (s t : State) (e : RunEnd), s.run = false → (RunsTo s e t ↔ e = .halted ∧ t = s))
    ∧ (∀ (s : State) (v : Byte), (writeReg .p v s).run = s.run)
    ∧ (∀ (s : State) (v : Bool), (s.setRun v).p = s.p)

/-! ### The instructions: each completes, with its result and its frame -/

/-- 43 R130 (bytes and wrap of PC: log 3, 7): in every form LDA completes; A is the operand, or the byte at the form's
address; Z and N follow it; nothing else changes but PC. -/
def Obligations.LdaResult : Prop :=
  ∀ s : State,
    (∀ d, WritesRegs s (exec (.ldaImm d) s) d s.x s.y d 2)
      ∧ (∀ d, let v := s.byteAt (eaZeroPage d).ea; WritesRegs s (exec (.ldaZp d) s) v s.x s.y v 2)
      ∧ (∀ d, let v := s.byteAt (eaZeroPageX d s).ea; WritesRegs s (exec (.ldaZpX d) s) v s.x s.y v 2)
      ∧ (∀ a, let v := s.byteAt (eaAbsolute a).ea; WritesRegs s (exec (.ldaAbs a) s) v s.x s.y v 3)
      ∧ (∀ a, let v := s.byteAt (eaAbsoluteX a s).ea; WritesRegs s (exec (.ldaAbsX a) s) v s.x s.y v 3)
      ∧ (∀ a, let v := s.byteAt (eaAbsoluteY a s).ea; WritesRegs s (exec (.ldaAbsY a) s) v s.x s.y v 3)
      ∧ (∀ d, let v := s.byteAt (eaIndirectX chip d s).ea; WritesRegs s (exec (.ldaIndX d) s) v s.x s.y v 2)
      ∧ (∀ d, let v := s.byteAt (eaIndirectY chip d s).ea; WritesRegs s (exec (.ldaIndY d) s) v s.x s.y v 2)

/-- 43 R131 (log 3, 7): in every form LDX completes; X is the operand, or the byte at the form's address, indexed by Y and
never by X; Z and N follow it; nothing else changes but PC. -/
def Obligations.LdxResult : Prop :=
  ∀ s : State,
    (∀ d, WritesRegs s (exec (.ldxImm d) s) s.a d s.y d 2)
      ∧ (∀ d, let v := s.byteAt (eaZeroPage d).ea; WritesRegs s (exec (.ldxZp d) s) s.a v s.y v 2)
      ∧ (∀ d, let v := s.byteAt (eaZeroPageY d s).ea; WritesRegs s (exec (.ldxZpY d) s) s.a v s.y v 2)
      ∧ (∀ a, let v := s.byteAt (eaAbsolute a).ea; WritesRegs s (exec (.ldxAbs a) s) s.a v s.y v 3)
      ∧ (∀ a, let v := s.byteAt (eaAbsoluteY a s).ea; WritesRegs s (exec (.ldxAbsY a) s) s.a v s.y v 3)

/-- 43 R132 (log 3, 7): in every form LDY completes; Y is the operand, or the byte at the form's address, indexed by X and
never by Y; Z and N follow it; nothing else changes but PC. -/
def Obligations.LdyResult : Prop :=
  ∀ s : State,
    (∀ d, WritesRegs s (exec (.ldyImm d) s) s.a s.x d d 2)
      ∧ (∀ d, let v := s.byteAt (eaZeroPage d).ea; WritesRegs s (exec (.ldyZp d) s) s.a s.x v v 2)
      ∧ (∀ d, let v := s.byteAt (eaZeroPageX d s).ea; WritesRegs s (exec (.ldyZpX d) s) s.a s.x v v 2)
      ∧ (∀ a, let v := s.byteAt (eaAbsolute a).ea; WritesRegs s (exec (.ldyAbs a) s) s.a s.x v v 3)
      ∧ (∀ a, let v := s.byteAt (eaAbsoluteX a s).ea; WritesRegs s (exec (.ldyAbsX a) s) s.a s.x v v 3)

/-- 43 R133 (log 3, 7): in every form STA completes; the byte at the form's address is A, every other byte reads as before,
and no register and no flag changes but PC. -/
def Obligations.StaResult : Prop :=
  ∀ s : State, s.mem.wf = true →
    (∀ d, StoresByte s (exec (.staZp d) s) (eaZeroPage d).ea s.a 2)
      ∧ (∀ d, StoresByte s (exec (.staZpX d) s) (eaZeroPageX d s).ea s.a 2)
      ∧ (∀ a, StoresByte s (exec (.staAbs a) s) (eaAbsolute a).ea s.a 3)
      ∧ (∀ a, StoresByte s (exec (.staAbsX a) s) (eaAbsoluteX a s).ea s.a 3)
      ∧ (∀ a, StoresByte s (exec (.staAbsY a) s) (eaAbsoluteY a s).ea s.a 3)
      ∧ (∀ d, StoresByte s (exec (.staIndX d) s) (eaIndirectX chip d s).ea s.a 2)
      ∧ (∀ d, StoresByte s (exec (.staIndY d) s) (eaIndirectY chip d s).ea s.a 2)

/-- 43 R134, R135 (log 3, 7): in every form STX and STY complete; the byte at the form's address is the register, every
other byte reads as before, and no register and no flag changes but PC. -/
def Obligations.StxStyResult : Prop :=
  ∀ s : State, s.mem.wf = true →
    (∀ d, StoresByte s (exec (.stxZp d) s) (eaZeroPage d).ea s.x 2)
      ∧ (∀ d, StoresByte s (exec (.stxZpY d) s) (eaZeroPageY d s).ea s.x 2)
      ∧ (∀ a, StoresByte s (exec (.stxAbs a) s) (eaAbsolute a).ea s.x 3)
      ∧ (∀ d, StoresByte s (exec (.styZp d) s) (eaZeroPage d).ea s.y 2)
      ∧ (∀ d, StoresByte s (exec (.styZpX d) s) (eaZeroPageX d s).ea s.y 2)
      ∧ (∀ a, StoresByte s (exec (.styAbs a) s) (eaAbsolute a).ea s.y 3)

/-- 44 R140 (D10, D28; log 3, 7, 10, 24): in every form ADC completes, whatever D holds; A is the wrapped sum with the
carry in; C, V, Z and N are those of the whole sum; nothing else changes but PC. -/
def Obligations.AdcResult : Prop :=
  ∀ s : State,
    (∀ d, AddsCarry s (exec (.adcImm d) s) d 2)
      ∧ (∀ d, AddsCarry s (exec (.adcZp d) s) (s.byteAt (eaZeroPage d).ea) 2)
      ∧ (∀ d, AddsCarry s (exec (.adcZpX d) s) (s.byteAt (eaZeroPageX d s).ea) 2)
      ∧ (∀ a, AddsCarry s (exec (.adcAbs a) s) (s.byteAt (eaAbsolute a).ea) 3)
      ∧ (∀ a, AddsCarry s (exec (.adcAbsX a) s) (s.byteAt (eaAbsoluteX a s).ea) 3)
      ∧ (∀ a, AddsCarry s (exec (.adcAbsY a) s) (s.byteAt (eaAbsoluteY a s).ea) 3)
      ∧ (∀ d, AddsCarry s (exec (.adcIndX d) s) (s.byteAt (eaIndirectX chip d s).ea) 2)
      ∧ (∀ d, AddsCarry s (exec (.adcIndY d) s) (s.byteAt (eaIndirectY chip d s).ea) 2)

/-- 44 R141 (log 3, 7): in every form CMP completes; C, Z and N compare A with the operand; V and the rest, every register
and memory are unchanged but PC. -/
def Obligations.CmpResult : Prop :=
  ∀ s : State,
    (∀ d, Compares s (exec (.cmpImm d) s) s.a d 2)
      ∧ (∀ d, Compares s (exec (.cmpZp d) s) s.a (s.byteAt (eaZeroPage d).ea) 2)
      ∧ (∀ d, Compares s (exec (.cmpZpX d) s) s.a (s.byteAt (eaZeroPageX d s).ea) 2)
      ∧ (∀ a, Compares s (exec (.cmpAbs a) s) s.a (s.byteAt (eaAbsolute a).ea) 3)
      ∧ (∀ a, Compares s (exec (.cmpAbsX a) s) s.a (s.byteAt (eaAbsoluteX a s).ea) 3)
      ∧ (∀ a, Compares s (exec (.cmpAbsY a) s) s.a (s.byteAt (eaAbsoluteY a s).ea) 3)
      ∧ (∀ d, Compares s (exec (.cmpIndX d) s) s.a (s.byteAt (eaIndirectX chip d s).ea) 2)
      ∧ (∀ d, Compares s (exec (.cmpIndY d) s) s.a (s.byteAt (eaIndirectY chip d s).ea) 2)

/-- 44 R142, R143 (log 3, 7): in every form CPX and CPY complete; C, Z and N compare the index register with the operand;
V and the rest, every register and memory are unchanged but PC. -/
def Obligations.CpxCpyResult : Prop :=
  ∀ s : State,
    (∀ d, Compares s (exec (.cpxImm d) s) s.x d 2)
      ∧ (∀ d, Compares s (exec (.cpxZp d) s) s.x (s.byteAt (eaZeroPage d).ea) 2)
      ∧ (∀ a, Compares s (exec (.cpxAbs a) s) s.x (s.byteAt (eaAbsolute a).ea) 3)
      ∧ (∀ d, Compares s (exec (.cpyImm d) s) s.y d 2)
      ∧ (∀ d, Compares s (exec (.cpyZp d) s) s.y (s.byteAt (eaZeroPage d).ea) 2)
      ∧ (∀ a, Compares s (exec (.cpyAbs a) s) s.y (s.byteAt (eaAbsolute a).ea) 3)

/-- 45 R150 to R153 (log 3, 7): INX, INY, DEX and DEY complete; the register moves by 1 with 8-bit wrap; Z and N follow it;
nothing else changes but PC. -/
def Obligations.IncDecResult : Prop :=
  ∀ s : State,
    (∃ v : Byte, v.toNat = (s.x.toNat + 1) % 256 ∧ WritesRegs s (exec .inx s) s.a v s.y v 1)
      ∧ (∃ v : Byte, v.toNat = (s.y.toNat + 1) % 256 ∧ WritesRegs s (exec .iny s) s.a s.x v v 1)
      ∧ (∃ v : Byte, v.toNat = (s.x.toNat + 255) % 256 ∧ WritesRegs s (exec .dex s) s.a v s.y v 1)
      ∧ (∃ v : Byte, v.toNat = (s.y.toNat + 255) % 256 ∧ WritesRegs s (exec .dey s) s.a s.x v v 1)

/-- 45 R154 (log 3, 7): TAX completes; X is A; Z and N follow it; nothing else changes but PC. -/
def Obligations.TaxResult : Prop := ∀ s : State, WritesRegs s (exec .tax s) s.a s.a s.y s.a 1

/-- 46 R160 (D6, D9; log 3, 6, 9): JMP completes; PC is the little-endian word at the pointer, its high byte from the next
address mod 65536; nothing else changes. -/
def Obligations.JmpResult : Prop :=
  ∀ (s : State) (a : Addr), ∃ t, exec (.jmp a) s = .next t
    ∧ t.pc.toNat = byteNat s a.toNat + 256 * byteNat s ((a.toNat + 1) % 65536)
    ∧ Regs s t s.a s.x s.y ∧ t.p = s.p ∧ SameMem s t

/-- 46 R161 (log 3, 7): BNE completes; with Z clear PC is the next instruction's address plus the signed displacement mod
65536, with Z set the next instruction's address; nothing else changes. -/
def Obligations.BneResult : Prop :=
  ∀ (s : State) (d : Byte), ∃ t, exec (.bne d) s = .next t
    ∧ (s.p.getLsbD 1 = false → (t.pc.toNat : Int) = ((s.pc.toNat : Int) + 2 + d.toInt) % 65536)
    ∧ (s.p.getLsbD 1 = true → PastBytes s t 2)
    ∧ Regs s t s.a s.x s.y ∧ t.p = s.p ∧ SameMem s t

/-- 46 R162 (D4, D29; log 3, 7, 25): HLT completes; RUN is 0, PC is 1 on, and nothing else changes: no push, no flag, no
vector. -/
def Obligations.HltResult : Prop :=
  ∀ s : State, ∃ t, exec .hlt s = .next t ∧ t.run = false ∧ PastBytes s t 1 ∧ t.a = s.a ∧ t.x = s.x ∧ t.y = s.y
    ∧ t.sp = s.sp ∧ t.p = s.p ∧ SameMem s t

/-! ### Effective addresses -/

/-- R102, R104, R105, R106, R108, R109, R110: what the resolver gives at a state whose PC is the address of the first operand
byte, where a word read at the top of memory does not fault, and each mode's operand bytes. -/
def Obligations.ResolverPlainModes : Prop :=
  ∀ (c : Config) (pc0 : Addr) (op : Byte) (s : State), c.wordWrapAtTop = .wrap →
    resolve c .immediate pc0 op s = .ok ⟨s.pc, false⟩
      ∧ resolve c .absolute pc0 op s = .ok ⟨s.mem.readWord s.pc, false⟩
      ∧ (∃ r, resolve c .absoluteX pc0 op s = .ok r
        ∧ r.ea.toNat = ((s.mem.readWord s.pc).toNat + s.x.toNat) % 65536
        ∧ r.crossed = decide (r.ea.toNat / 256 ≠ (s.mem.readWord s.pc).toNat / 256))
      ∧ (∃ r, resolve c .absoluteY pc0 op s = .ok r
        ∧ r.ea.toNat = ((s.mem.readWord s.pc).toNat + s.y.toNat) % 65536
        ∧ r.crossed = decide (r.ea.toNat / 256 ≠ (s.mem.readWord s.pc).toNat / 256))
      ∧ (∃ r, resolve c .zeroPage pc0 op s = .ok r ∧ r.ea.toNat = (s.byteAt s.pc).toNat ∧ r.crossed = false)
      ∧ (∃ r, resolve c .zeroPageX pc0 op s = .ok r
        ∧ r.ea.toNat = ((s.byteAt s.pc).toNat + s.x.toNat) % 256 ∧ r.crossed = false)
      ∧ (∃ r, resolve c .zeroPageY pc0 op s = .ok r
        ∧ r.ea.toNat = ((s.byteAt s.pc).toNat + s.y.toNat) % 256 ∧ r.crossed = false)
      ∧ Mode.immediate.size = 1 ∧ Mode.absolute.size = 2 ∧ Mode.absoluteX.size = 2 ∧ Mode.absoluteY.size = 2
      ∧ Mode.zeroPage.size = 1 ∧ Mode.zeroPageX.size = 1 ∧ Mode.zeroPageY.size = 1

/-- 41 R103, R107, R111, R112 (D8; log 8): Relative gives the operand's own location and Indirect the operand word, not
dereferenced; Indirect-X and Indirect-Y read their pointer at the wrapped zero-page index, its high byte from the next
address, or with `ZP_POINTER_WRAP` from the next address within the page; Indirect-Y then adds Y and records the page
crossing against the pointer. -/
def Obligations.ResolverPointerModes : Prop :=
  ∀ (c : Config) (pc0 : Addr) (op : Byte) (s : State), c.wordWrapAtTop = .wrap →
    let z := (s.byteAt s.pc).toNat
    let t := (z + s.x.toNat) % 256
    let next := fun k => if c.zpPointerWrap then (k + 1) % 256 else k + 1
    resolve c .relative pc0 op s = .ok ⟨s.pc, false⟩
      ∧ resolve c .indirect pc0 op s = .ok ⟨s.mem.readWord s.pc, false⟩
      ∧ (∃ r, resolve c .indirectX pc0 op s = .ok r ∧ r.ea.toNat = byteNat s t + 256 * byteNat s (next t)
        ∧ r.crossed = false)
      ∧ (∃ r, resolve c .indirectY pc0 op s = .ok r
        ∧ r.ea.toNat = (byteNat s z + 256 * byteNat s (next z) + s.y.toNat) % 65536
        ∧ r.crossed = decide (r.ea.toNat / 256 ≠ byteNat s (next z)))

/-- 41 R104 to R112 (D8; log 1, 8): the addresses the meanings compute from the operand an instruction carries. -/
def Obligations.InstructionAddresses : Prop :=
  ∀ (s : State) (d : Byte) (a : Addr),
    (eaZeroPage d).ea.toNat = d.toNat ∧ (eaZeroPageX d s).ea.toNat = (d.toNat + s.x.toNat) % 256
      ∧ (eaZeroPageY d s).ea.toNat = (d.toNat + s.y.toNat) % 256 ∧ (eaAbsolute a).ea = a
      ∧ (eaAbsoluteX a s).ea.toNat = (a.toNat + s.x.toNat) % 65536
      ∧ (eaAbsoluteY a s).ea.toNat = (a.toNat + s.y.toNat) % 65536
      ∧ (eaIndirectX chip d s).ea.toNat = wordNat s ((d.toNat + s.x.toNat) % 256)
      ∧ (eaIndirectY chip d s).ea.toNat = (wordNat s d.toNat + s.y.toNat) % 65536

/-- 41 R114: a page is crossed iff the low byte of the base plus the index passes 0xFF, the wrap from page 0xFF to page
0x00 included; an index of 0 never crosses. -/
def Obligations.PageCrossing : Prop :=
  ∀ (base : Addr) (index : Byte),
    ((indexed base index).crossed = true ↔ 0xFF < base.toNat % 256 + index.toNat)
      ∧ (indexed base 0).crossed = false

/-! ### Reset, invariants, the host and the free run -/

/-- 10 R31, R32 (D11, D12, D13; log 11, 12, 13): the reset state of the modelled machine, and the two conventions: A, X, Y
and PC are 0, SP is 0xFF or 0, P is `P_RESET` or 0, RUN is 0, every byte of memory is 0. -/
def Obligations.ResetValues : Prop :=
  (∀ c : Config,
      let s := State.resetWith c
      s.a = 0 ∧ s.x = 0 ∧ s.y = 0 ∧ s.pc = 0 ∧ s.run = false ∧ (∀ k : Addr, s.byteAt k = 0)
        ∧ (c.resetConvention = .powerOn → s.sp = 0xFF ∧ s.p = c.pReset)
        ∧ (c.resetConvention = .zero → s.sp = 0 ∧ s.p = 0))
    ∧ State.reset = State.resetWith Config.specDefault ∧ State.reset.sp = 0xFF ∧ State.reset.p = 0x20

/-- The state after reset has what every step keeps, with SP 0xFF and only bit 5 of the stored status bits set (log 11,
12). -/
def Obligations.ResetIsKept : Prop := Kept 0xFF 0x20 State.reset

/-- 10 R13, R19, R20 (log 22, 25): from every state whose memory is in canonical form, a step leaves it so, and leaves
SP and the status bits I, D, B and U as they were. -/
def Obligations.StepKeepsStoredState : Prop :=
  ∀ (sp stored : Byte) (s t : State), Kept sp stored s → step s = .next t → Kept sp stored t

/-- 20 R41, R48 (log 22): every host operation leaves memory in canonical form. -/
def Obligations.HostOpsKeepMemoryForm : Prop :=
  ∀ (op : HostOp) (s t : State), s.mem.wf = true → op.perform s = .next t → t.mem.wf = true

/-- 60 R173, R174 (D15, D16; log 15, 16): a fault of `step`, `load` or `loadExecutable` leaves all state exactly as it
was; an unsupported opcode names the PC it leaves, and a failed `loadExecutable` has written no byte, moved no PC and
not set RUN; the same operation on the state it leaves faults again in the same way. That the state is the old one is
how the model reads a fault (`stateAfter`, log 16); the recorded PC and byte are D15 (log 15). -/
def Obligations.FaultLeavesState : Prop :=
  ∀ (op : HostOp) (s : State) (f : Fault), op.perform s = .fault f →
    stateAfter s (op.perform s) = s
      ∧ (∀ pc b, f = .unsupportedOpcode pc b → pc = (stateAfter s (op.perform s)).pc ∧ b = s.byteAt pc)
      ∧ op.perform (stateAfter s (op.perform s)) = .fault f

/-- 10 R30, R20, 70 R200 (D20, D25; log 11, 12, 13, 19, 21): a host write of A, X, Y, SP, P or PC stores all bits
given, bit 5 of P among them, and changes nothing else; a host set and clear of a flag round-trips every other bit;
the host's reset gives the reset state from every state, memory included. -/
def Obligations.HostAccess : Prop :=
  ∀ s : State,
    (∀ (r : HostReg) (v : Byte), ∃ t, HostOp.perform (.writeReg r v) s = .next t ∧ t = writeReg r v s ∧ readReg r t = v
        ∧ (∀ r', r' ≠ r → readReg r' t = readReg r' s) ∧ t.pc = s.pc ∧ t.run = s.run ∧ t.mem = s.mem)
      ∧ (∀ v : Addr, ∃ t, HostOp.perform (.writePc v) s = .next t ∧ t.pc = v
        ∧ (∀ r, readReg r t = readReg r s) ∧ t.run = s.run ∧ t.mem = s.mem)
      ∧ (∀ f f' : Flag, ∃ t u, HostOp.perform (.setFlag f) s = .next t ∧ HostOp.perform (.clearFlag f) t = .next u
        ∧ checkFlag f t.p = true ∧ checkFlag f u.p = false
        ∧ (f' ≠ f → checkFlag f' t.p = checkFlag f' s.p ∧ checkFlag f' u.p = checkFlag f' s.p)
        ∧ t = s.setP t.p ∧ u = s.setP u.p)
      ∧ HostOp.perform .reset s = .next State.reset

/-- 40 R98 (log 31): `run` has at most one answer from a state, and the executor with enough fuel finds exactly it. -/
def Obligations.RunIsDeterministic : Prop :=
  ∀ (s : State),
    (∀ e t, RunsTo s e t ↔ ∃ n, runFor n s = some (e, t))
      ∧ (∀ e e' t t', RunsTo s e t → RunsTo s e' t' → e = e' ∧ t = t')

/-- 40 R98, R99 (log 31): a run returns or goes on for ever, and never both. -/
def Obligations.RunEndsOrDiverges : Prop :=
  ∀ s : State, (∃ e t, RunsTo s e t) ↔ ¬Diverges s

/-- 40 R98, 46 R162, 60 R170, R173, 70 R207: a run that was started with RUN = 1 and returns `Halted` ended with an
HLT; one that returns a fault ended with an unsupported opcode at the PC it left, RUN still 1 (the recorded PC and
byte are D15, log 15; PC and RUN as before is D16, log 16; the form of a run is log 31). -/
def Obligations.RunEndsByHltOrFault : Prop :=
  ∀ (s t : State) (e : RunEnd), RunsTo s e t → s.run = true →
    (e = .halted → ∃ u rest, Reaches s u ∧ u.run = true ∧ decode (fetchBytes u) = .ok (.hlt, rest) ∧ step u = .next t)
      ∧ (∀ f, e = .faulted f → Reaches s t ∧ t.run = true ∧ f = .unsupportedOpcode t.pc (t.byteAt t.pc))

/-- 46 R161, 40 R99 (log 3, 31): a branch to itself with Z clear runs for ever. -/
def Obligations.BranchToSelfDiverges : Prop :=
  ∀ s : State, s.run = true → s.p.getLsbD 1 = false → ProgramAt s (encode (.bne 0xFE)) → Diverges s

/-- 20 R59 (log 3, 7, 8, 23): for every store form, wherever it stores (over its own bytes too), the store runs with
the bytes that stood there before it, and the very next step fetches opcode and operands from memory with the stored
byte in place, and runs what they decode to; likewise the step after a load between steps. -/
def Obligations.SelfModifyingStoreIsFetched : Prop :=
  (∀ (i : Instr) (s : State), (storedAt i s).isSome = true ↔ i.mnemonic ∈ [Mnemonic.sta, .stx, .sty])
    ∧ (∀ (s : State) (i : Instr) (ea : Addr) (v : Byte), s.mem.wf = true → storedAt i s = some (ea, v) →
        ProgramAt s (encode i) →
        ∃ t, step s = .next t ∧ exec i s = .next t ∧ PastBytes s t (encode i).length
          ∧ fetchBytes t = bytesFrom (afterStore s ea v) t.pc
          ∧ ∀ j rest, decode (bytesFrom (afterStore s ea v) t.pc) = .ok (j, rest) → step t = exec j t)
    ∧ ∀ (s t : State) (address : Addr) (bytes : List Byte), s.mem.wf = true → load address bytes s = .next t →
      t.pc = s.pc ∧ fetchBytes t = bytesFrom (afterLoad s address bytes) s.pc
        ∧ ∀ j rest, decode (bytesFrom (afterLoad s address bytes) s.pc) = .ok (j, rest) → step t = exec j t
end

