-- ==== Sys2Proof/Laws/Decode.lean ====
section
/-! SUPPORT. The byte-order helpers: splitting and joining a word, and their values as numbers (20_memory.md R44). -/

namespace Sys2Proof

@[simp] theorem joinBytes_split (a : Addr) : joinBytes (loByte a) (hiByte a) = a := by
  apply BitVec.eq_of_getLsbD_eq
  intro i hi
  simp only [joinBytes, loByte, hiByte, BitVec.getLsbD_append, BitVec.getLsbD_extractLsb']
  by_cases h : i < 8
  · simp [h]
  · simp [h, show i - 8 < 8 by omega, show 8 + (i - 8) = i by omega]

@[simp] theorem loByte_joinBytes (low high : Byte) : loByte (joinBytes low high) = low := by
  apply BitVec.eq_of_getLsbD_eq
  intro i hi
  simp only [joinBytes, loByte, BitVec.getLsbD_append, BitVec.getLsbD_extractLsb', Nat.zero_add, hi, decide_true,
    Bool.true_and, if_true]

@[simp] theorem hiByte_joinBytes (low high : Byte) : hiByte (joinBytes low high) = high := by
  apply BitVec.eq_of_getLsbD_eq
  intro i hi
  simp only [joinBytes, hiByte, BitVec.getLsbD_append, BitVec.getLsbD_extractLsb', hi, decide_true, Bool.true_and,
    show ¬ 8 + i < 8 by omega, if_false, Nat.add_sub_cancel_left]

theorem toNat_loByte (a : Addr) : (loByte a).toNat = a.toNat % 256 := by
  simp [loByte]

theorem toNat_hiByte (a : Addr) : (hiByte a).toNat = a.toNat / 256 := by
  have := a.isLt
  simp only [hiByte, BitVec.extractLsb'_toNat, Nat.shiftRight_eq_div_pow]
  omega

theorem toNat_joinBytes (low high : Byte) : (joinBytes low high).toNat = low.toNat + 256 * high.toNat := by
  have h := joinBytes_split (joinBytes low high)
  have hl := toNat_loByte (joinBytes low high)
  have hh := toNat_hiByte (joinBytes low high)
  rw [loByte_joinBytes] at hl
  rw [hiByte_joinBytes] at hh
  omega

namespace Machine

@[simp] theorem toNat_zext16 (v : Byte) : (zext16 v).toNat = v.toNat := by
  have := v.isLt
  simp only [zext16, BitVec.toNat_setWidth]
  omega

end Machine

end Sys2Proof
end

