-- ==== Sys2Proof/Laws/Memory.lean ====
section
/-! SUPPORT. The laws of memory: what a read gives after a write, and that every memory operation keeps the canonical
form. -/

namespace Sys2Proof.Machine

@[simp] theorem Memory.wfFrom_nil (lo : Nat) : Memory.wfFrom lo [] = true := rfl

@[simp] theorem Memory.wfFrom_cons (lo k : Nat) (v : Byte) (m : Memory) :
    Memory.wfFrom lo ((k, v) :: m) = true ↔
      lo ≤ k ∧ k < 65536 ∧ v ≠ Memory.blank ∧ Memory.wfFrom (k + 1) m = true := by
  simp [Memory.wfFrom, and_assoc]

theorem Memory.wfFrom_mono {lo lo' : Nat} {m : Memory} (hle : lo' ≤ lo) (h : Memory.wfFrom lo m = true) :
    Memory.wfFrom lo' m = true := by
  cases m with
  | nil => rfl
  | cons c m =>
    obtain ⟨k', v'⟩ := c
    simp only [Memory.wfFrom_cons] at h ⊢
    exact ⟨hle.trans h.1, h.2⟩

/-- Below the first possible address every read is blank. -/
theorem Memory.read_below {lo k : Nat} {m : Memory} (h : Memory.wfFrom lo m = true) (hk : k < lo) :
    Memory.read m k = Memory.blank := by
  induction m generalizing lo with
  | nil => rfl
  | cons c m ih =>
    obtain ⟨k', v'⟩ := c
    simp only [Memory.wfFrom_cons] at h
    simp only [Memory.read]
    rw [if_neg (by omega), ih h.2.2.2 (by omega)]

/-- What a read gives after a write, everywhere. -/
theorem Memory.read_write {lo : Nat} {m : Memory} (h : Memory.wfFrom lo m = true) (k j : Nat) (v : Byte) :
    Memory.read (Memory.write m k v) j = if j = k then v else Memory.read m j := by
  induction m generalizing lo with
  | nil =>
    by_cases hv : v = Memory.blank <;> simp [Memory.write, Memory.read, hv, eq_comm]
  | cons c m ih =>
    obtain ⟨k', v'⟩ := c
    simp only [Memory.wfFrom_cons] at h
    simp only [Memory.write]
    by_cases hlt : k < k'
    · simp only [hlt, if_true]
      by_cases hv : v = Memory.blank
      · by_cases hj : j = k
        · subst hj
          have := Memory.read_below h.2.2.2 (k := j) (by omega)
          simp [Memory.read, hv, this, Nat.ne_of_gt hlt]
        · simp [hv, hj]
      · by_cases hj : j = k
        · simp [Memory.read, hv, hj]
        · simp [Memory.read, hv, hj, Ne.symm hj]
    · rw [if_neg hlt]
      by_cases he : k = k'
      · subst he
        rw [if_pos rfl]
        by_cases hv : v = Memory.blank
        · by_cases hj : j = k
          · subst hj
            have := Memory.read_below h.2.2.2 (k := j) (by omega)
            simp [hv, this]
          · simp [Memory.read, hv, hj, Ne.symm hj]
        · by_cases hj : j = k
          · simp [Memory.read, hv, hj]
          · simp [Memory.read, hv, hj, Ne.symm hj]
      · rw [if_neg he]
        simp only [Memory.read, ih h.2.2.2]
        by_cases hj : k' = j
        · simp [hj, show j ≠ k from by omega]
        · simp [hj]

/-- A write keeps the canonical form. -/
theorem Memory.wfFrom_write {lo k : Nat} {m : Memory} (h : Memory.wfFrom lo m = true) (hlo : lo ≤ k) (hk : k < 65536)
    (v : Byte) : Memory.wfFrom lo (Memory.write m k v) = true := by
  induction m generalizing lo with
  | nil =>
    by_cases hv : v = Memory.blank <;> simp [Memory.write, hv, hlo, hk]
  | cons c m ih =>
    obtain ⟨k', v'⟩ := c
    have h' := h
    simp only [Memory.wfFrom_cons] at h
    simp only [Memory.write]
    by_cases hlt : k < k'
    · simp only [hlt, if_true]
      by_cases hv : v = Memory.blank
      · simpa [hv] using h
      · simp only [hv, if_false, Memory.wfFrom_cons]
        exact ⟨hlo, hk, hv, by omega, h.2.1, h.2.2.1, h.2.2.2⟩
    · rw [if_neg hlt]
      by_cases he : k = k'
      · subst he
        by_cases hv : v = Memory.blank
        · simpa [hv] using Memory.wfFrom_mono (by omega) h.2.2.2
        · simp only [hv, if_true, if_false, Memory.wfFrom_cons]
          exact ⟨hlo, hk, hv, h.2.2.2⟩
      · rw [if_neg he]
        simp only [Memory.wfFrom_cons]
        exact ⟨h.1, h.2.1, h.2.2.1, ih h.2.2.2 (by omega)⟩

theorem Memory.wf_write {m : Memory} (h : m.wf = true) {k : Nat} (hk : k < 65536) (v : Byte) :
    (Memory.write m k v).wf = true :=
  Memory.wfFrom_write h (Nat.zero_le k) hk v

theorem Memory.wf_writeByte {m : Memory} (h : m.wf = true) (addr : Addr) (v : Byte) : (m.writeByte addr v).wf = true :=
  Memory.wf_write h addr.isLt v

theorem Memory.wf_writeWord {m : Memory} (h : m.wf = true) (addr v : Addr) : (m.writeWord addr v).wf = true :=
  Memory.wf_writeByte (Memory.wf_writeByte h _ _) _ _

/-- A run of writes that stays inside memory keeps the canonical form. -/
theorem Memory.wf_writeBytes {m : Memory} (h : m.wf = true) (k : Nat) (bytes : List Byte)
    (hk : k + bytes.length ≤ 65536) : (m.writeBytes k bytes).wf = true := by
  induction bytes generalizing m k with
  | nil => exact h
  | cons b rest ih =>
    simp only [List.length_cons] at hk
    exact ih (Memory.wf_write h (by omega) b) (k + 1) (by omega)

theorem wf_placeFrom {m : Memory} (h : m.wf = true) (addr : Addr) (bytes : List Byte) :
    Memory.wf (placeFrom m addr bytes) = true := by
  induction bytes generalizing m addr with
  | nil => exact h
  | cons b rest ih => exact ih (Memory.wf_writeByte h addr b) (addr + 1)

/-- `store` keeps the canonical form. -/
theorem wf_store {s : State} (h : s.mem.wf = true) (ea : Addr) (v : Byte) : (store ea v s).mem.wf = true :=
  Memory.wf_writeByte h ea v

/-- `load`, where it answers a next state, keeps the canonical form. -/
theorem wf_load {s t : State} (h : s.mem.wf = true) {address : Addr} {bytes : List Byte}
    (hl : load address bytes s = .next t) : t.mem.wf = true := by
  unfold load at hl
  split at hl
  · cases hl
  · cases hl
    exact Memory.wf_writeBytes h _ _ (by omega)

/-- The state a table word is placed in keeps the canonical form. -/
theorem wf_withFetchWord {s : State} (h : s.mem.wf = true) (nbits w : Nat) :
    (s.withFetchWord nbits w).mem.wf = true :=
  wf_placeFrom h s.pc _

/-- Memory after reset is in canonical form. -/
theorem wf_resetWith (c : Config) : (State.resetWith c).mem.wf = true := rfl

end Sys2Proof.Machine
end

