-- ==== Sys2Proof/Laws/State.lean ====
section
/-! SUPPORT. One lemma for each field of State under each named update, and the fields of a state after reset. -/

namespace Sys2Proof.Machine

variable (s : State)

@[simp] theorem State.setA_a (v : Byte) : (s.setA v).a = v := rfl
@[simp] theorem State.setA_x (v : Byte) : (s.setA v).x = s.x := rfl
@[simp] theorem State.setA_y (v : Byte) : (s.setA v).y = s.y := rfl
@[simp] theorem State.setA_sp (v : Byte) : (s.setA v).sp = s.sp := rfl
@[simp] theorem State.setA_pc (v : Byte) : (s.setA v).pc = s.pc := rfl
@[simp] theorem State.setA_p (v : Byte) : (s.setA v).p = s.p := rfl
@[simp] theorem State.setA_run (v : Byte) : (s.setA v).run = s.run := rfl
@[simp] theorem State.setA_mem (v : Byte) : (s.setA v).mem = s.mem := rfl

@[simp] theorem State.setX_a (v : Byte) : (s.setX v).a = s.a := rfl
@[simp] theorem State.setX_x (v : Byte) : (s.setX v).x = v := rfl
@[simp] theorem State.setX_y (v : Byte) : (s.setX v).y = s.y := rfl
@[simp] theorem State.setX_sp (v : Byte) : (s.setX v).sp = s.sp := rfl
@[simp] theorem State.setX_pc (v : Byte) : (s.setX v).pc = s.pc := rfl
@[simp] theorem State.setX_p (v : Byte) : (s.setX v).p = s.p := rfl
@[simp] theorem State.setX_run (v : Byte) : (s.setX v).run = s.run := rfl
@[simp] theorem State.setX_mem (v : Byte) : (s.setX v).mem = s.mem := rfl

@[simp] theorem State.setY_a (v : Byte) : (s.setY v).a = s.a := rfl
@[simp] theorem State.setY_x (v : Byte) : (s.setY v).x = s.x := rfl
@[simp] theorem State.setY_y (v : Byte) : (s.setY v).y = v := rfl
@[simp] theorem State.setY_sp (v : Byte) : (s.setY v).sp = s.sp := rfl
@[simp] theorem State.setY_pc (v : Byte) : (s.setY v).pc = s.pc := rfl
@[simp] theorem State.setY_p (v : Byte) : (s.setY v).p = s.p := rfl
@[simp] theorem State.setY_run (v : Byte) : (s.setY v).run = s.run := rfl
@[simp] theorem State.setY_mem (v : Byte) : (s.setY v).mem = s.mem := rfl

@[simp] theorem State.setSp_a (v : Byte) : (s.setSp v).a = s.a := rfl
@[simp] theorem State.setSp_x (v : Byte) : (s.setSp v).x = s.x := rfl
@[simp] theorem State.setSp_y (v : Byte) : (s.setSp v).y = s.y := rfl
@[simp] theorem State.setSp_sp (v : Byte) : (s.setSp v).sp = v := rfl
@[simp] theorem State.setSp_pc (v : Byte) : (s.setSp v).pc = s.pc := rfl
@[simp] theorem State.setSp_p (v : Byte) : (s.setSp v).p = s.p := rfl
@[simp] theorem State.setSp_run (v : Byte) : (s.setSp v).run = s.run := rfl
@[simp] theorem State.setSp_mem (v : Byte) : (s.setSp v).mem = s.mem := rfl

@[simp] theorem State.setPc_a (v : Addr) : (s.setPc v).a = s.a := rfl
@[simp] theorem State.setPc_x (v : Addr) : (s.setPc v).x = s.x := rfl
@[simp] theorem State.setPc_y (v : Addr) : (s.setPc v).y = s.y := rfl
@[simp] theorem State.setPc_sp (v : Addr) : (s.setPc v).sp = s.sp := rfl
@[simp] theorem State.setPc_pc (v : Addr) : (s.setPc v).pc = v := rfl
@[simp] theorem State.setPc_p (v : Addr) : (s.setPc v).p = s.p := rfl
@[simp] theorem State.setPc_run (v : Addr) : (s.setPc v).run = s.run := rfl
@[simp] theorem State.setPc_mem (v : Addr) : (s.setPc v).mem = s.mem := rfl

@[simp] theorem State.setP_a (v : Byte) : (s.setP v).a = s.a := rfl
@[simp] theorem State.setP_x (v : Byte) : (s.setP v).x = s.x := rfl
@[simp] theorem State.setP_y (v : Byte) : (s.setP v).y = s.y := rfl
@[simp] theorem State.setP_sp (v : Byte) : (s.setP v).sp = s.sp := rfl
@[simp] theorem State.setP_pc (v : Byte) : (s.setP v).pc = s.pc := rfl
@[simp] theorem State.setP_p (v : Byte) : (s.setP v).p = v := rfl
@[simp] theorem State.setP_run (v : Byte) : (s.setP v).run = s.run := rfl
@[simp] theorem State.setP_mem (v : Byte) : (s.setP v).mem = s.mem := rfl

@[simp] theorem State.setRun_a (v : Bool) : (s.setRun v).a = s.a := rfl
@[simp] theorem State.setRun_x (v : Bool) : (s.setRun v).x = s.x := rfl
@[simp] theorem State.setRun_y (v : Bool) : (s.setRun v).y = s.y := rfl
@[simp] theorem State.setRun_sp (v : Bool) : (s.setRun v).sp = s.sp := rfl
@[simp] theorem State.setRun_pc (v : Bool) : (s.setRun v).pc = s.pc := rfl
@[simp] theorem State.setRun_p (v : Bool) : (s.setRun v).p = s.p := rfl
@[simp] theorem State.setRun_run (v : Bool) : (s.setRun v).run = v := rfl
@[simp] theorem State.setRun_mem (v : Bool) : (s.setRun v).mem = s.mem := rfl

@[simp] theorem State.setMem_a (v : Memory) : (s.setMem v).a = s.a := rfl
@[simp] theorem State.setMem_x (v : Memory) : (s.setMem v).x = s.x := rfl
@[simp] theorem State.setMem_y (v : Memory) : (s.setMem v).y = s.y := rfl
@[simp] theorem State.setMem_sp (v : Memory) : (s.setMem v).sp = s.sp := rfl
@[simp] theorem State.setMem_pc (v : Memory) : (s.setMem v).pc = s.pc := rfl
@[simp] theorem State.setMem_p (v : Memory) : (s.setMem v).p = s.p := rfl
@[simp] theorem State.setMem_run (v : Memory) : (s.setMem v).run = s.run := rfl
@[simp] theorem State.setMem_mem (v : Memory) : (s.setMem v).mem = v := rfl

@[simp] theorem State.advance_a (n : Nat) : (s.advance n).a = s.a := rfl
@[simp] theorem State.advance_x (n : Nat) : (s.advance n).x = s.x := rfl
@[simp] theorem State.advance_y (n : Nat) : (s.advance n).y = s.y := rfl
@[simp] theorem State.advance_sp (n : Nat) : (s.advance n).sp = s.sp := rfl
@[simp] theorem State.advance_pc (n : Nat) : (s.advance n).pc = s.pc + BitVec.ofNat 16 n := rfl
@[simp] theorem State.advance_p (n : Nat) : (s.advance n).p = s.p := rfl
@[simp] theorem State.advance_run (n : Nat) : (s.advance n).run = s.run := rfl
@[simp] theorem State.advance_mem (n : Nat) : (s.advance n).mem = s.mem := rfl

@[simp] theorem State.withNZ_a (v : Byte) : (s.withNZ v).a = s.a := rfl
@[simp] theorem State.withNZ_x (v : Byte) : (s.withNZ v).x = s.x := rfl
@[simp] theorem State.withNZ_y (v : Byte) : (s.withNZ v).y = s.y := rfl
@[simp] theorem State.withNZ_sp (v : Byte) : (s.withNZ v).sp = s.sp := rfl
@[simp] theorem State.withNZ_pc (v : Byte) : (s.withNZ v).pc = s.pc := rfl
@[simp] theorem State.withNZ_p (v : Byte) : (s.withNZ v).p = setNZ v s.p := rfl
@[simp] theorem State.withNZ_run (v : Byte) : (s.withNZ v).run = s.run := rfl
@[simp] theorem State.withNZ_mem (v : Byte) : (s.withNZ v).mem = s.mem := rfl

@[simp] theorem State.advance_byteAt (n : Nat) (k : Addr) : (s.advance n).byteAt k = s.byteAt k := rfl

@[simp] theorem State.advance_advance (m n : Nat) : (s.advance m).advance n = s.advance (m + n) := by
  simp [State.advance, State.setPc, BitVec.add_assoc, BitVec.ofNat_add]

/-- The word read at the first operand address is the two operand bytes of a fetch. -/
theorem readWord_operand : s.mem.readWord (s.pc + 1#16) = joinBytes (s.byteAt (s.pc + 1#16)) (s.byteAt (s.pc + 2#16)) := by
  simp [Memory.readWord, State.byteAt, BitVec.add_assoc]

end Sys2Proof.Machine
end

