-- ==== Sys2Proof/Laws/Ops.lean ====
section
/-! SUPPORT. One lemma for each shared operation that says everything it can do, as the state it gives; a later proof
cites it and does not unfold the operation. -/

namespace Sys2Proof.Machine

/-! ### The handlers -/

theorem loadA_eq (v : Byte) (s : State) : loadA v s = { s with a := v, p := setNZ v s.p } := rfl

theorem loadX_eq (v : Byte) (s : State) : loadX v s = { s with x := v, p := setNZ v s.p } := rfl

theorem loadY_eq (v : Byte) (s : State) : loadY v s = { s with y := v, p := setNZ v s.p } := rfl

theorem store_eq (ea : Addr) (v : Byte) (s : State) : store ea v s = { s with mem := s.mem.writeByte ea v } := rfl

theorem addCarry_eq (m : Byte) (s : State) :
    addCarry m s =
      { s with
        a := (adc8 s.a m (checkFlag .c s.p)).sum
        p := setNZ (adc8 s.a m (checkFlag .c s.p)).sum (assignFlag .v (adc8 s.a m (checkFlag .c s.p)).overflow
          (assignFlag .c (adc8 s.a m (checkFlag .c s.p)).carry s.p)) } := rfl

theorem compare_eq (r m : Byte) (s : State) :
    compare r m s = { s with p := setNZ (cmp8 r m).diff (assignFlag .c (cmp8 r m).carry s.p) } := rfl

theorem incX_eq (s : State) : incX s = { s with x := inc8 s.x, p := setNZ (inc8 s.x) s.p } := rfl

theorem incY_eq (s : State) : incY s = { s with y := inc8 s.y, p := setNZ (inc8 s.y) s.p } := rfl

theorem decX_eq (s : State) : decX s = { s with x := dec8 s.x, p := setNZ (dec8 s.x) s.p } := rfl

theorem decY_eq (s : State) : decY s = { s with y := dec8 s.y, p := setNZ (dec8 s.y) s.p } := rfl

theorem transferAX_eq (s : State) : transferAX s = { s with x := s.a, p := setNZ s.a s.p } := rfl

theorem jumpThrough_eq (c : Config) (ea : Addr) (s : State) :
    jumpThrough c ea s = { s with pc := jumpTarget c.jmpIndPageWrap s.mem ea } := rfl

theorem branchNotEqual_eq (d : Byte) (s : State) :
    branchNotEqual d s = { s with pc := if checkFlag .z s.p then s.pc else s.pc + sext16 d } := by
  unfold branchNotEqual
  split <;> rfl

theorem halt_eq (s : State) : halt s = { s with run := false } := rfl

/-! ### The pointers under the parameters of `chip` -/

theorem zpPointer_chip (m : Memory) (z : Byte) : zpPointer chip.zpPointerWrap m z = m.readWord (zext16 z) := rfl

theorem jumpTarget_chip (m : Memory) (ea : Addr) : jumpTarget chip.jmpIndPageWrap m ea = m.readWord ea := rfl

theorem wordRead_chip (m : Memory) (addr : Addr) : wordRead chip m addr = .ok (m.readWord addr) := rfl

/-! ### What a step and a host load can do -/

/-- A step runs the decoded instruction or ends in the one fault. -/
theorem step_cases (s : State) :
    (∃ i rest, decode (fetchBytes s) = .ok (i, rest) ∧ step s = exec i s)
      ∨ (∃ e, decode (fetchBytes s) = .error e ∧ step s = .fault (.unsupportedOpcode s.pc (s.byteAt s.pc))) := by
  cases h : decode (fetchBytes s) with
  | ok r => exact .inl ⟨r.1, r.2, rfl, by simp [step, h]⟩
  | error e => exact .inr ⟨e, rfl, by simp [step, h, unsupported]⟩

/-- A load stores all its bytes and changes nothing else, or ends in the one fault. -/
theorem load_cases (address : Addr) (bytes : List Byte) (s : State) :
    (address.toNat + bytes.length ≤ 65536
        ∧ load address bytes s = .next { s with mem := s.mem.writeBytes address.toNat bytes })
      ∨ (65536 < address.toNat + bytes.length
        ∧ load address bytes s = .fault (.loadOutOfRange address bytes.length)) := by
  by_cases h : 65536 < address.toNat + bytes.length
  · exact .inr ⟨h, by simp [load, h]⟩
  · exact .inl ⟨by omega, by simp [load, h, State.setMem]⟩

/-- Every instruction answers a next state: no arm faults and no arm refuses. -/
theorem exec_next (i : Instr) (s : State) : ∃ t, exec i s = .next t := by
  cases i <;> exact ⟨_, rfl⟩

end Sys2Proof.Machine
end

