-- ==== Sys2Proof/Laws/Fsm.lean ====
section
/-! SUPPORT. What the parts of the fetch-decode-execute machine can answer: each lemma says once how a part can end in a
fault, and what a looked-up row is. -/

namespace Sys2Proof.Machine

/-- A looked-up row stands in the table under its byte. -/
theorem decodeOpcode_some {op : Byte} {row : OpcodeRow} (h : decodeOpcode op = some row) :
    row ∈ opcodeTable ∧ row.byte = op := by
  unfold decodeOpcode at h
  exact ⟨List.mem_of_find?_eq_some h, by simpa using List.find?_some h⟩

theorem implementedRow_some {c : Config} {op : Byte} {row : OpcodeRow} (h : implementedRow c op = some row) :
    op ∈ c.implementedOpcodes ∧ decodeOpcode op = some row := by
  unfold implementedRow at h
  split at h
  · next hc => exact ⟨by simpa using hc, h⟩
  · cases h

/-- Only Implied mode has no operand bytes to resolve, and the rows pair it with the handlers that need no address. -/
theorem implied_rows {row : OpcodeRow} (h : row ∈ opcodeTable) :
    row.mode = .implied ↔ row.mnemonic ∈ [Mnemonic.inx, .iny, .dex, .dey, .tax, .hlt] := by
  have all : ∀ r ∈ opcodeTable,
      (r.mode = .implied ↔ r.mnemonic ∈ [Mnemonic.inx, .iny, .dex, .dey, .tax, .hlt]) := by decide
  exact all row h

theorem wordRead_error {c : Config} {m : Memory} {addr : Addr} {f : FsmFault} (h : wordRead c m addr = .error f) :
    c.wordWrapAtTop = .fault ∧ addr = 0xFFFF ∧ f = .wordAtTop 0xFFFF := by
  unfold wordRead at h
  split at h
  · next hc =>
    cases h
    exact ⟨hc.1, hc.2, by rw [hc.2]; rfl⟩
  · cases h

/-- A word write stores both bytes, or is the bounds fault at the top where that faults. -/
theorem wordWrite_cases (c : Config) (m : Memory) (addr v : Addr) :
    (c.wordWrapAtTop = .fault ∧ addr = 0xFFFF ∧ wordWrite c m addr v = .error (.wordAtTop addr))
      ∨ ((c.wordWrapAtTop = .wrap ∨ addr ≠ 0xFFFF) ∧ wordWrite c m addr v = .ok (m.writeWord addr v)) := by
  unfold wordWrite
  split
  · next h => exact .inl ⟨h.1, h.2, rfl⟩
  · next h =>
    refine .inr ⟨?_, rfl⟩
    cases hc : c.wordWrapAtTop with
    | wrap => exact .inl rfl
    | fault => exact .inr fun ha => h ⟨hc, ha⟩

/-- A word write keeps the canonical form, whatever the parameters. -/
theorem wf_wordWrite {c : Config} {m m' : Memory} {addr v : Addr} (hm : m.wf = true)
    (h : wordWrite c m addr v = .ok m') : m'.wf = true := by
  rcases wordWrite_cases c m addr v with ⟨_, _, he⟩ | ⟨_, he⟩ <;> rw [he] at h <;> cases h
  exact Memory.wf_writeWord hm addr v

/-- The resolver faults for Implied mode, and on a word at the top where that faults, and in no other way. -/
theorem resolve_error {c : Config} {mode : Mode} {pc0 : Addr} {op : Byte} {s : State} {f : FsmFault}
    (h : resolve c mode pc0 op s = .error f) :
    (mode = .implied ∧ f = .core (.invalidAddressingRequest pc0 op))
      ∨ (c.wordWrapAtTop = .fault ∧ f = .wordAtTop 0xFFFF) := by
  have word : ∀ g : Addr → Resolved, (wordRead c s.mem s.pc).map g = .error f →
      c.wordWrapAtTop = .fault ∧ f = .wordAtTop 0xFFFF := by
    intro g hg
    cases hw : wordRead c s.mem s.pc with
    | ok a => rw [hw] at hg; cases hg
    | error e =>
      rw [hw] at hg
      cases hg
      exact ⟨(wordRead_error hw).1, (wordRead_error hw).2.2⟩
  cases mode with
  | implied => cases h; exact .inl ⟨rfl, rfl⟩
  | absolute => exact .inr (word _ h)
  | absoluteX => exact .inr (word _ h)
  | absoluteY => exact .inr (word _ h)
  | indirect => exact .inr (word _ h)
  | immediate => cases h
  | relative => cases h
  | zeroPage => cases h
  | zeroPageX => cases h
  | zeroPageY => cases h
  | indirectX => cases h
  | indirectY => cases h

/-- A handler faults where it needs an address and gets none, and on a jump pointer at the top where that faults. -/
theorem handle_error {c : Config} {m : Mnemonic} {pc0 : Addr} {op : Byte} {r : Option Resolved} {s : State} {f : FsmFault}
    (h : handle c m pc0 op r s = .error f) :
    (r = none ∧ m ∉ [Mnemonic.inx, .iny, .dex, .dey, .tax, .hlt] ∧ f = .core (.invalidAddressingRequest pc0 op))
      ∨ (c.wordWrapAtTop = .fault ∧ f = .wordAtTop 0xFFFF) := by
  cases r with
  | none =>
    left
    cases m <;> cases h <;> exact ⟨rfl, by decide, rfl⟩
  | some r =>
    right
    cases m <;> try cases h
    simp only [handle, jumpRead] at h
    split at h
    · cases h
    · cases hw : wordRead c s.mem r.ea with
      | ok a => rw [hw] at h; cases h
      | error e =>
        rw [hw] at h
        cases h
        exact ⟨(wordRead_error hw).1, (wordRead_error hw).2.2⟩

/-- How a step of the parameterised machine can fault. -/
theorem fsmStep_fault {c : Config} {s : State} {f : FsmFault} (h : fsmStep c s = .fault f) :
    (implementedRow c (s.byteAt s.pc) = none ∧ f = .core (.unsupportedOpcode s.pc (s.byteAt s.pc)))
      ∨ (c.wordWrapAtTop = .fault ∧ f = .wordAtTop 0xFFFF) := by
  simp only [fsmStep] at h
  cases hi : implementedRow c (s.byteAt s.pc) with
  | none =>
    simp only [hi] at h
    cases h
    exact .inl ⟨rfl, rfl⟩
  | some row =>
    right
    have hrow := implied_rows (decodeOpcode_some (implementedRow_some hi).2).1
    simp only [hi, resolveAndHandle] at h
    by_cases hmode : row.mode = .implied
    · simp only [hmode, if_true] at h
      cases hh : handle c row.mnemonic s.pc (s.byteAt s.pc) none (s.advance 1) with
      | ok p => simp only [hh, reduceCtorEq] at h
      | error e =>
        simp only [hh, StepReport.fault.injEq] at h
        rcases handle_error hh with ⟨_, hn, _⟩ | hw
        · exact absurd (hrow.1 hmode) hn
        · exact h ▸ hw
    · simp only [hmode, if_false] at h
      cases hr : resolve c row.mode s.pc (s.byteAt s.pc) (s.advance 1) with
      | error e =>
        simp only [hr, StepReport.fault.injEq] at h
        rcases resolve_error hr with ⟨him, _⟩ | hw
        · exact absurd him hmode
        · exact h ▸ hw
      | ok r =>
        simp only [hr] at h
        cases hh : handle c row.mnemonic s.pc (s.byteAt s.pc) (some r) ((s.advance 1).advance row.mode.size) with
        | ok p => simp only [hh, reduceCtorEq] at h
        | error e =>
          simp only [hh, StepReport.fault.injEq] at h
          rcases handle_error hh with ⟨hn, _, _⟩ | hw
          · cases hn
          · exact h ▸ hw

end Sys2Proof.Machine
end

