-- ==== Sys2Proof/Laws/PerInstr.lean ====
section
/-! SUPPORT. A family of statements about every instruction as syntax: its opcode byte has the row of the opcode table
that names its mnemonic and mode, it is well-formed, and its encoding has its length (30_encoding.md R73, R76, R77). -/

namespace Sys2Proof.Laws.TableRow

/-- The row of the instruction's opcode byte names its mnemonic and mode; the instruction is well-formed; its encoding
has the length of its mode. -/
def Statement (i : Instr) : Prop :=
  (decodeOpcode (opcodeOf i)).map (fun r => (r.byte, r.mnemonic, r.mode)) = some (opcodeOf i, i.mnemonic, i.mode)
    ∧ i.wf = true ∧ (encode i).length = i.length

theorem byte_fits (m : Mnemonic) (mode : Mode) (d : Byte) (h : m.modes.contains mode = true) (hs : mode.size = 1) :
    (RawInstr.mk m mode d.toNat).wf = true := by
  have := d.isLt
  simp only [RawInstr.wf, RawInstr.pairExists, RawInstr.operandFits, h, hs, Bool.true_and, decide_eq_true_eq]
  omega

theorem word_fits (m : Mnemonic) (mode : Mode) (a : Addr) (h : m.modes.contains mode = true) (hs : mode.size = 2) :
    (RawInstr.mk m mode a.toNat).wf = true := by
  have := a.isLt
  simp only [RawInstr.wf, RawInstr.pairExists, RawInstr.operandFits, h, hs, Bool.true_and, decide_eq_true_eq]
  omega

theorem ldaImm (d : Byte) : Statement (.ldaImm d) := ⟨rfl, byte_fits _ _ d rfl rfl, rfl⟩
theorem ldaZp (d : Byte) : Statement (.ldaZp d) := ⟨rfl, byte_fits _ _ d rfl rfl, rfl⟩
theorem ldaZpX (d : Byte) : Statement (.ldaZpX d) := ⟨rfl, byte_fits _ _ d rfl rfl, rfl⟩
theorem ldaAbs (a : Addr) : Statement (.ldaAbs a) := ⟨rfl, word_fits _ _ a rfl rfl, rfl⟩
theorem ldaAbsX (a : Addr) : Statement (.ldaAbsX a) := ⟨rfl, word_fits _ _ a rfl rfl, rfl⟩
theorem ldaAbsY (a : Addr) : Statement (.ldaAbsY a) := ⟨rfl, word_fits _ _ a rfl rfl, rfl⟩
theorem ldaIndX (d : Byte) : Statement (.ldaIndX d) := ⟨rfl, byte_fits _ _ d rfl rfl, rfl⟩
theorem ldaIndY (d : Byte) : Statement (.ldaIndY d) := ⟨rfl, byte_fits _ _ d rfl rfl, rfl⟩
theorem ldxImm (d : Byte) : Statement (.ldxImm d) := ⟨rfl, byte_fits _ _ d rfl rfl, rfl⟩
theorem ldxZp (d : Byte) : Statement (.ldxZp d) := ⟨rfl, byte_fits _ _ d rfl rfl, rfl⟩
theorem ldxZpY (d : Byte) : Statement (.ldxZpY d) := ⟨rfl, byte_fits _ _ d rfl rfl, rfl⟩
theorem ldxAbs (a : Addr) : Statement (.ldxAbs a) := ⟨rfl, word_fits _ _ a rfl rfl, rfl⟩
theorem ldxAbsY (a : Addr) : Statement (.ldxAbsY a) := ⟨rfl, word_fits _ _ a rfl rfl, rfl⟩
theorem ldyImm (d : Byte) : Statement (.ldyImm d) := ⟨rfl, byte_fits _ _ d rfl rfl, rfl⟩
theorem ldyZp (d : Byte) : Statement (.ldyZp d) := ⟨rfl, byte_fits _ _ d rfl rfl, rfl⟩
theorem ldyZpX (d : Byte) : Statement (.ldyZpX d) := ⟨rfl, byte_fits _ _ d rfl rfl, rfl⟩
theorem ldyAbs (a : Addr) : Statement (.ldyAbs a) := ⟨rfl, word_fits _ _ a rfl rfl, rfl⟩
theorem ldyAbsX (a : Addr) : Statement (.ldyAbsX a) := ⟨rfl, word_fits _ _ a rfl rfl, rfl⟩
theorem staZp (d : Byte) : Statement (.staZp d) := ⟨rfl, byte_fits _ _ d rfl rfl, rfl⟩
theorem staZpX (d : Byte) : Statement (.staZpX d) := ⟨rfl, byte_fits _ _ d rfl rfl, rfl⟩
theorem staAbs (a : Addr) : Statement (.staAbs a) := ⟨rfl, word_fits _ _ a rfl rfl, rfl⟩
theorem staAbsX (a : Addr) : Statement (.staAbsX a) := ⟨rfl, word_fits _ _ a rfl rfl, rfl⟩
theorem staAbsY (a : Addr) : Statement (.staAbsY a) := ⟨rfl, word_fits _ _ a rfl rfl, rfl⟩
theorem staIndX (d : Byte) : Statement (.staIndX d) := ⟨rfl, byte_fits _ _ d rfl rfl, rfl⟩
theorem staIndY (d : Byte) : Statement (.staIndY d) := ⟨rfl, byte_fits _ _ d rfl rfl, rfl⟩
theorem stxZp (d : Byte) : Statement (.stxZp d) := ⟨rfl, byte_fits _ _ d rfl rfl, rfl⟩
theorem stxZpY (d : Byte) : Statement (.stxZpY d) := ⟨rfl, byte_fits _ _ d rfl rfl, rfl⟩
theorem stxAbs (a : Addr) : Statement (.stxAbs a) := ⟨rfl, word_fits _ _ a rfl rfl, rfl⟩
theorem styZp (d : Byte) : Statement (.styZp d) := ⟨rfl, byte_fits _ _ d rfl rfl, rfl⟩
theorem styZpX (d : Byte) : Statement (.styZpX d) := ⟨rfl, byte_fits _ _ d rfl rfl, rfl⟩
theorem styAbs (a : Addr) : Statement (.styAbs a) := ⟨rfl, word_fits _ _ a rfl rfl, rfl⟩
theorem adcImm (d : Byte) : Statement (.adcImm d) := ⟨rfl, byte_fits _ _ d rfl rfl, rfl⟩
theorem adcZp (d : Byte) : Statement (.adcZp d) := ⟨rfl, byte_fits _ _ d rfl rfl, rfl⟩
theorem adcZpX (d : Byte) : Statement (.adcZpX d) := ⟨rfl, byte_fits _ _ d rfl rfl, rfl⟩
theorem adcAbs (a : Addr) : Statement (.adcAbs a) := ⟨rfl, word_fits _ _ a rfl rfl, rfl⟩
theorem adcAbsX (a : Addr) : Statement (.adcAbsX a) := ⟨rfl, word_fits _ _ a rfl rfl, rfl⟩
theorem adcAbsY (a : Addr) : Statement (.adcAbsY a) := ⟨rfl, word_fits _ _ a rfl rfl, rfl⟩
theorem adcIndX (d : Byte) : Statement (.adcIndX d) := ⟨rfl, byte_fits _ _ d rfl rfl, rfl⟩
theorem adcIndY (d : Byte) : Statement (.adcIndY d) := ⟨rfl, byte_fits _ _ d rfl rfl, rfl⟩
theorem cmpImm (d : Byte) : Statement (.cmpImm d) := ⟨rfl, byte_fits _ _ d rfl rfl, rfl⟩
theorem cmpZp (d : Byte) : Statement (.cmpZp d) := ⟨rfl, byte_fits _ _ d rfl rfl, rfl⟩
theorem cmpZpX (d : Byte) : Statement (.cmpZpX d) := ⟨rfl, byte_fits _ _ d rfl rfl, rfl⟩
theorem cmpAbs (a : Addr) : Statement (.cmpAbs a) := ⟨rfl, word_fits _ _ a rfl rfl, rfl⟩
theorem cmpAbsX (a : Addr) : Statement (.cmpAbsX a) := ⟨rfl, word_fits _ _ a rfl rfl, rfl⟩
theorem cmpAbsY (a : Addr) : Statement (.cmpAbsY a) := ⟨rfl, word_fits _ _ a rfl rfl, rfl⟩
theorem cmpIndX (d : Byte) : Statement (.cmpIndX d) := ⟨rfl, byte_fits _ _ d rfl rfl, rfl⟩
theorem cmpIndY (d : Byte) : Statement (.cmpIndY d) := ⟨rfl, byte_fits _ _ d rfl rfl, rfl⟩
theorem cpxImm (d : Byte) : Statement (.cpxImm d) := ⟨rfl, byte_fits _ _ d rfl rfl, rfl⟩
theorem cpxZp (d : Byte) : Statement (.cpxZp d) := ⟨rfl, byte_fits _ _ d rfl rfl, rfl⟩
theorem cpxAbs (a : Addr) : Statement (.cpxAbs a) := ⟨rfl, word_fits _ _ a rfl rfl, rfl⟩
theorem cpyImm (d : Byte) : Statement (.cpyImm d) := ⟨rfl, byte_fits _ _ d rfl rfl, rfl⟩
theorem cpyZp (d : Byte) : Statement (.cpyZp d) := ⟨rfl, byte_fits _ _ d rfl rfl, rfl⟩
theorem cpyAbs (a : Addr) : Statement (.cpyAbs a) := ⟨rfl, word_fits _ _ a rfl rfl, rfl⟩
theorem inx : Statement .inx := ⟨rfl, rfl, rfl⟩
theorem iny : Statement .iny := ⟨rfl, rfl, rfl⟩
theorem dex : Statement .dex := ⟨rfl, rfl, rfl⟩
theorem dey : Statement .dey := ⟨rfl, rfl, rfl⟩
theorem tax : Statement .tax := ⟨rfl, rfl, rfl⟩
theorem jmp (a : Addr) : Statement (.jmp a) := ⟨rfl, word_fits _ _ a rfl rfl, rfl⟩
theorem bne (d : Byte) : Statement (.bne d) := ⟨rfl, byte_fits _ _ d rfl rfl, rfl⟩
theorem hlt : Statement .hlt := ⟨rfl, rfl, rfl⟩

end Sys2Proof.Laws.TableRow
end

