-- ==== Sys2Proof/Laws/Store.lean ====
section
/-! SUPPORT. What a store form leaves, said once over `storedAt`: its address, its byte, and the state after it. -/

namespace Sys2Proof.Safety

open Sys2Proof.Machine

/-- The instructions that store are those of STA, STX and STY. -/
theorem storedAt_isSome (i : Instr) (s : State) :
    (storedAt i s).isSome = true ↔ i.mnemonic ∈ [Mnemonic.sta, .stx, .sty] := by
  cases i <;> simp [storedAt, Instr.mnemonic, Instr.parts]

/-- A store form writes its one byte, moves PC past itself and does nothing else. -/
theorem exec_storedAt {i : Instr} {s : State} {ea : Addr} {v : Byte} (h : storedAt i s = some (ea, v)) :
    exec i s = .next ((s.advance (encode i).length).setMem (s.mem.writeByte ea v)) := by
  cases i <;> cases h <;> rfl

/-- What a step fetches, as bytes read from PC on. -/
theorem fetchBytes_eq (s : State) : fetchBytes s = bytesFrom s.byteAt s.pc := rfl

end Sys2Proof.Safety
end

