-- ==== Sys2Proof/Tests/Slice0.lean ====
section
/-! SUPPORT. The model's own tests. Expected results come from 95_test_vectors.md (named at each test) or from the rule
cited; then one witness for each obligation that has hypotheses. -/

namespace Sys2Proof.Tests

open Sys2Proof.Machine Sys2Proof.Safety

/-! ### Well-formedness: an ill-formed term for each check -/

/-- LDX has no Absolute-X form (R77). -/
theorem test_wf_no_such_pair : (RawInstr.mk .ldx .absoluteX 0x1234).wf = false := by decide

/-- An immediate operand is one byte (R72). -/
theorem test_wf_operand_too_wide : (RawInstr.mk .lda .immediate 0x100).wf = false := by decide

/-- Implied mode has no operand (R72). -/
theorem test_wf_operand_of_implied : (RawInstr.mk .inx .implied 1).wf = false := by decide

/-- The same terms put right. -/
theorem test_wf_good : (RawInstr.mk .ldx .absoluteY 0x1234).wf = true ∧ (RawInstr.mk .lda .immediate 0xFF).wf = true
    ∧ (RawInstr.mk .inx .implied 0).wf = true := by decide

/-! ### Decoding: every constructor by the bytes of R76, with operands 0x10 or 0x1234 (R81) -/

theorem test_decode_lda :
    decode [0xA9, 0x10] = .ok (.ldaImm 0x10, [])
      ∧ decode [0xA5, 0x10] = .ok (.ldaZp 0x10, [])
      ∧ decode [0xB5, 0x10] = .ok (.ldaZpX 0x10, [])
      ∧ decode [0xAD, 0x34, 0x12] = .ok (.ldaAbs 0x1234, [])
      ∧ decode [0xBD, 0x34, 0x12] = .ok (.ldaAbsX 0x1234, [])
      ∧ decode [0xB9, 0x34, 0x12] = .ok (.ldaAbsY 0x1234, [])
      ∧ decode [0xA1, 0x10] = .ok (.ldaIndX 0x10, [])
      ∧ decode [0xB1, 0x10] = .ok (.ldaIndY 0x10, []) := by decide

theorem test_decode_ldx :
    decode [0xA2, 0x10] = .ok (.ldxImm 0x10, [])
      ∧ decode [0xA6, 0x10] = .ok (.ldxZp 0x10, [])
      ∧ decode [0xB6, 0x10] = .ok (.ldxZpY 0x10, [])
      ∧ decode [0xAE, 0x34, 0x12] = .ok (.ldxAbs 0x1234, [])
      ∧ decode [0xBE, 0x34, 0x12] = .ok (.ldxAbsY 0x1234, []) := by decide

theorem test_decode_ldy :
    decode [0xA0, 0x10] = .ok (.ldyImm 0x10, [])
      ∧ decode [0xA4, 0x10] = .ok (.ldyZp 0x10, [])
      ∧ decode [0xB4, 0x10] = .ok (.ldyZpX 0x10, [])
      ∧ decode [0xAC, 0x34, 0x12] = .ok (.ldyAbs 0x1234, [])
      ∧ decode [0xBC, 0x34, 0x12] = .ok (.ldyAbsX 0x1234, []) := by decide

theorem test_decode_sta :
    decode [0x85, 0x10] = .ok (.staZp 0x10, [])
      ∧ decode [0x95, 0x10] = .ok (.staZpX 0x10, [])
      ∧ decode [0x8D, 0x34, 0x12] = .ok (.staAbs 0x1234, [])
      ∧ decode [0x9D, 0x34, 0x12] = .ok (.staAbsX 0x1234, [])
      ∧ decode [0x99, 0x34, 0x12] = .ok (.staAbsY 0x1234, [])
      ∧ decode [0x81, 0x10] = .ok (.staIndX 0x10, [])
      ∧ decode [0x91, 0x10] = .ok (.staIndY 0x10, []) := by decide

theorem test_decode_stx :
    decode [0x86, 0x10] = .ok (.stxZp 0x10, [])
      ∧ decode [0x96, 0x10] = .ok (.stxZpY 0x10, [])
      ∧ decode [0x8E, 0x34, 0x12] = .ok (.stxAbs 0x1234, []) := by decide

theorem test_decode_sty :
    decode [0x84, 0x10] = .ok (.styZp 0x10, [])
      ∧ decode [0x94, 0x10] = .ok (.styZpX 0x10, [])
      ∧ decode [0x8C, 0x34, 0x12] = .ok (.styAbs 0x1234, []) := by decide

theorem test_decode_adc :
    decode [0x69, 0x10] = .ok (.adcImm 0x10, [])
      ∧ decode [0x65, 0x10] = .ok (.adcZp 0x10, [])
      ∧ decode [0x75, 0x10] = .ok (.adcZpX 0x10, [])
      ∧ decode [0x6D, 0x34, 0x12] = .ok (.adcAbs 0x1234, [])
      ∧ decode [0x7D, 0x34, 0x12] = .ok (.adcAbsX 0x1234, [])
      ∧ decode [0x79, 0x34, 0x12] = .ok (.adcAbsY 0x1234, [])
      ∧ decode [0x61, 0x10] = .ok (.adcIndX 0x10, [])
      ∧ decode [0x71, 0x10] = .ok (.adcIndY 0x10, []) := by decide

theorem test_decode_cmp :
    decode [0xC9, 0x10] = .ok (.cmpImm 0x10, [])
      ∧ decode [0xC5, 0x10] = .ok (.cmpZp 0x10, [])
      ∧ decode [0xD5, 0x10] = .ok (.cmpZpX 0x10, [])
      ∧ decode [0xCD, 0x34, 0x12] = .ok (.cmpAbs 0x1234, [])
      ∧ decode [0xDD, 0x34, 0x12] = .ok (.cmpAbsX 0x1234, [])
      ∧ decode [0xD9, 0x34, 0x12] = .ok (.cmpAbsY 0x1234, [])
      ∧ decode [0xC1, 0x10] = .ok (.cmpIndX 0x10, [])
      ∧ decode [0xD1, 0x10] = .ok (.cmpIndY 0x10, []) := by decide

theorem test_decode_cpx :
    decode [0xE0, 0x10] = .ok (.cpxImm 0x10, [])
      ∧ decode [0xE4, 0x10] = .ok (.cpxZp 0x10, [])
      ∧ decode [0xEC, 0x34, 0x12] = .ok (.cpxAbs 0x1234, []) := by decide

theorem test_decode_cpy :
    decode [0xC0, 0x10] = .ok (.cpyImm 0x10, [])
      ∧ decode [0xC4, 0x10] = .ok (.cpyZp 0x10, [])
      ∧ decode [0xCC, 0x34, 0x12] = .ok (.cpyAbs 0x1234, []) := by decide

theorem test_decode_inx :
    decode [0xE8] = .ok (.inx, []) := by decide

theorem test_decode_iny :
    decode [0xC8] = .ok (.iny, []) := by decide

theorem test_decode_dex :
    decode [0xCA] = .ok (.dex, []) := by decide

theorem test_decode_dey :
    decode [0x88] = .ok (.dey, []) := by decide

theorem test_decode_tax :
    decode [0xAA] = .ok (.tax, []) := by decide

theorem test_decode_jmp :
    decode [0x6C, 0x34, 0x12] = .ok (.jmp 0x1234, []) := by decide

theorem test_decode_bne :
    decode [0xD0, 0x10] = .ok (.bne 0x10, []) := by decide

theorem test_decode_hlt :
    decode [0x00] = .ok (.hlt, []) := by decide

/-- Bytes that are rejected, by name: published opcodes outside the subset (R79), a missing operand, no byte. -/
theorem test_decode_rejects :
    decode [0xEA] = .error (.unsupportedOpcode 0xEA) ∧ decode [0x4C, 0x34, 0x12] = .error (.unsupportedOpcode 0x4C)
      ∧ decode [0xFF] = .error (.unsupportedOpcode 0xFF) ∧ decode [0xAD, 0x34] = .error (.truncated 0xAD)
      ∧ decode [] = .error .noBytes := by decide

/-- The table has 61 rows in rising byte order (R76). -/
theorem test_table_rising : opcodeTable.length = 61 ∧ (opcodeTable.map (·.byte.toNat)).Pairwise (· < ·) := by decide

/-- Four base counts the source prints (R75): immediate loads 2, absolute-indexed loads 4, indirect jump 5, halt 7. -/
theorem test_table_base_cycles :
    [0xA9, 0xBD, 0x6C, 0x00].map (fun b => (decodeOpcode (BitVec.ofNat 8 b)).map (·.base))
      = [some 2, some 4, some 5, some 7] := by decide

theorem test_encode :
    encode (.ldaAbsX 0x1234) = [0xBD, 0x34, 0x12] ∧ encode (.bne 0xFD) = [0xD0, 0xFD] ∧ encode .hlt = [0x00] := by decide

theorem test_table_word :
    decodeTableWord 8 0x6C = some (.jmp 0) ∧ decodeTableWord 24 0x1234AD = some (.ldaAbs 0x1234)
      ∧ decodeTableWord 8 0xEA = none := by decide

/-! ### One step -/

/-- The start state of 95_test_vectors.md: reset, the cells loaded, the code at 0x0600, PC there and RUN set. -/
def boot (code : List Byte) (cells : List (Addr × Byte)) : State :=
  { State.reset with
    pc := 0x0600
    run := true
    mem := placeFrom (cells.foldl (fun m c => m.writeByte c.1 c.2) []) 0x0600 code }

/-- What the tests look at: A, X, Y, PC and P. -/
structure View where
  a : Byte
  x : Byte
  y : Byte
  pc : Addr
  p : Byte
  deriving DecidableEq, Repr

/-- A, X, Y, PC and P after a step that does not fault. -/
def regs : Result → Option View
  | .next t => some ⟨t.a, t.x, t.y, t.pc, t.p⟩
  | .fault _ => none
  | .refused _ => none

/-- A byte of memory, PC and P after a step that does not fault. -/
def cell (k : Addr) : Result → Option (Byte × Addr × Byte)
  | .next t => some (t.byteAt k, t.pc, t.p)
  | .fault _ => none
  | .refused _ => none

/-- The fault of a step that faults. -/
def faultOf : Result → Option Fault
  | .fault f => some f
  | .next _ => none
  | .refused _ => none

/-- RUN, SP and PC after a step that does not fault. -/
def control : Result → Option (Bool × Byte × Addr)
  | .next t => some (t.run, t.sp, t.pc)
  | .fault _ => none
  | .refused _ => none

/-- Vector A1. -/
theorem test_lda_imm : let s := boot [0xA9, 0x42] []
    regs (step s) = some ⟨0x42, 0, 0, 0x0602, 0x20⟩ ∧ stepCycles s = some 2 := by decide

/-- Vector A2. -/
theorem test_lda_zp : let s := boot [0xA5, 0x80] [(0x0080, 0x7F)]
    regs (step s) = some ⟨0x7F, 0, 0, 0x0602, 0x20⟩ ∧ stepCycles s = some 3 := by decide

/-- S6: the zero-page index wraps. -/
theorem test_lda_zpX : let s := (boot [0xB5, 0xFF] [(0x0001, 0x99), (0x0101, 0x55)]).setX 2
    regs (step s) = some ⟨0x99, 2, 0, 0x0602, 0xA0⟩ ∧ stepCycles s = some 4 := by decide

/-- Vector A4: the loaded byte is 0. -/
theorem test_lda_abs : let s := (boot [0xAD, 0x34, 0x12] []).setA 5
    regs (step s) = some ⟨0, 0, 0, 0x0603, 0x22⟩ ∧ stepCycles s = some 4 := by decide

/-- Vector A6: a page is crossed. -/
theorem test_lda_absX : let s := (boot [0xBD, 0xF0, 0x12] [(0x1300, 0x02)]).setX 0x10
    regs (step s) = some ⟨2, 0x10, 0, 0x0603, 0x20⟩ ∧ stepCycles s = some 5 := by decide

/-- Vector A7: the address wraps at the top of memory. -/
theorem test_lda_absX_top : let s := (boot [0xBD, 0xFF, 0xFF] [(0x0000, 0x33)]).setX 1
    regs (step s) = some ⟨0x33, 1, 0, 0x0603, 0x20⟩ ∧ stepCycles s = some 5 := by decide

/-- Vector A8. -/
theorem test_lda_absY : let s := (boot [0xB9, 0xF0, 0x12] [(0x1310, 0x80)]).setY 0x20
    regs (step s) = some ⟨0x80, 0, 0x20, 0x0603, 0xA0⟩ ∧ stepCycles s = some 5 := by decide

/-- Vector A9. -/
theorem test_lda_indX : let s := (boot [0xA1, 0x10] [(0x0015, 0x03), (0x0300, 0x5A)]).setX 4
    regs (step s) = some ⟨0x5A, 4, 0, 0x0602, 0x20⟩ ∧ stepCycles s = some 6 := by decide

/-- Vector A10: a pointer at 0xFF takes its high byte from 0x0100 by default and from 0x0000 with `ZP_POINTER_WRAP`. -/
theorem test_lda_indX_top :
    let s := (boot [0xA1, 0xFE] [(0x00FF, 0x34), (0x0100, 0x12), (0x0000, 0x56), (0x1234, 0x77), (0x5634, 0x66)]).setX 1
    regs (step s) = some ⟨0x77, 1, 0, 0x0602, 0x20⟩
      ∧ (match fsmStep { chip with zpPointerWrap := true } s with
          | .ok n t => some (n, t.a)
          | .fault _ => none) = some (6, 0x66) := by decide

/-- S7. -/
theorem test_lda_indY : let s := (boot [0xB1, 0x04] [(0x0004, 0x34), (0x0005, 0x12), (0x1236, 0xAC)]).setY 2
    regs (step s) = some ⟨0xAC, 0, 2, 0x0602, 0xA0⟩ ∧ stepCycles s = some 5 := by decide

/-- Vector A14: the operand word wraps at the top of memory, and so does PC. -/
theorem test_lda_abs_at_top :
    let s := (boot [] [(0xFFFE, 0xAD), (0xFFFF, 0x10), (0x0000, 0x02), (0x0210, 0x99)]).setPc 0xFFFE
    regs (step s) = some ⟨0x99, 0, 0, 0x0001, 0xA0⟩ ∧ stepCycles s = some 4 := by decide

/-- Vectors L1, A3 and L3. -/
theorem test_ldx :
    regs (step ((boot [0xA2, 0x00] []).setX 0x55)) = some ⟨0, 0, 0, 0x0602, 0x22⟩
      ∧ regs (step ((boot [0xB6, 0xFF] [(0x0001, 0x99)]).setY 2)) = some ⟨0, 0x99, 2, 0x0602, 0xA0⟩
      ∧ stepCycles ((boot [0xBE, 0xF0, 0x12] [(0x1300, 0x07)]).setY 0x10) = some 5 := by decide

/-- LDX Zero-Page and Absolute (R131). -/
theorem test_ldx_direct :
    regs (step (boot [0xA6, 0x80] [(0x0080, 0x7F)])) = some ⟨0, 0x7F, 0, 0x0602, 0x20⟩
      ∧ regs (step (boot [0xAE, 0x34, 0x12] [(0x1234, 0x80)])) = some ⟨0, 0x80, 0, 0x0603, 0xA0⟩ := by decide

/-- Vectors L2, L4 and L5. -/
theorem test_ldy :
    regs (step (boot [0xA0, 0x80] [])) = some ⟨0, 0, 0x80, 0x0602, 0xA0⟩
      ∧ regs (step ((boot [0xBC, 0xF0, 0x12] [(0x12FF, 0x07)]).setX 0x0F)) = some ⟨0, 0x0F, 7, 0x0603, 0x20⟩
      ∧ regs (step ((boot [0xB4, 0xFF] [(0x0001, 0x11)]).setX 2)) = some ⟨0, 2, 0x11, 0x0602, 0x20⟩ := by decide

/-- LDY Zero-Page and Absolute (R132). -/
theorem test_ldy_direct :
    regs (step (boot [0xA4, 0x80] [(0x0080, 0x7F)])) = some ⟨0, 0, 0x7F, 0x0602, 0x20⟩
      ∧ regs (step (boot [0xAC, 0x34, 0x12] [(0x1234, 0x80)])) = some ⟨0, 0, 0x80, 0x0603, 0xA0⟩ := by decide

/-- Vectors T1, T4 and T7. -/
theorem test_sta_absolute :
    cell 0x0020 (step ((boot [0x8D, 0x20, 0x00] []).setA 0x15)) = some (0x15, 0x0603, 0x20)
      ∧ cell 0x1300 (step (((boot [0x9D, 0xF0, 0x12] []).setA 0xAB).setX 0x10)) = some (0xAB, 0x0603, 0x20)
      ∧ stepCycles (((boot [0x9D, 0xF0, 0x12] []).setA 0xAB).setX 0x10) = some 5
      ∧ cell 0x0200 (step ((boot [0x99, 0x00, 0x02] []).setA 0x01)) = some (0x01, 0x0603, 0x20) := by decide

/-- Vectors T5 and T6, and STA Zero-Page and Zero-Page-X (R133). -/
theorem test_sta_zero_page :
    cell 0x0401 (step (((boot [0x91, 0x12] [(0x0012, 0xFF), (0x0013, 0x03)]).setA 0xCD).setY 2))
        = some (0xCD, 0x0602, 0x20)
      ∧ cell 0x0300 (step (((boot [0x81, 0x10] [(0x0015, 0x03)]).setA 0xEE).setX 4)) = some (0xEE, 0x0602, 0x20)
      ∧ cell 0x0080 (step ((boot [0x85, 0x80] []).setA 0xEE)) = some (0xEE, 0x0602, 0x20)
      ∧ cell 0x0001 (step (((boot [0x95, 0xFF] []).setA 0xEE).setX 2)) = some (0xEE, 0x0602, 0x20) := by decide

/-- Vectors T2 and T8, and STX Zero-Page (R134). -/
theorem test_stx :
    cell 0x0001 (step (((boot [0x96, 0xFF] []).setX 7).setY 2)) = some (7, 0x0602, 0x20)
      ∧ cell 0x0101 (step (((boot [0x96, 0xFF] []).setX 7).setY 2)) = some (0, 0x0602, 0x20)
      ∧ cell 0x0300 (step ((boot [0x8E, 0x00, 0x03] []).setX 0x80)) = some (0x80, 0x0603, 0x20)
      ∧ cell 0x0010 (step ((boot [0x86, 0x10] []).setX 0x80)) = some (0x80, 0x0602, 0x20) := by decide

/-- Vector T3, and STY Zero-Page-X and Absolute (R135). -/
theorem test_sty :
    cell 0x0010 (step ((boot [0x84, 0x10] []).setY 0xFF)) = some (0xFF, 0x0602, 0x20)
      ∧ cell 0x0001 (step (((boot [0x94, 0xFF] []).setY 0xFF).setX 2)) = some (0xFF, 0x0602, 0x20)
      ∧ cell 0x1234 (step ((boot [0x8C, 0x34, 0x12] []).setY 0xFF)) = some (0xFF, 0x0603, 0x20) := by decide

/-- Section 2.3, rows 3, 5, 9 and 14, with D set: A and P after. -/
theorem test_adc_imm :
    regs (step (((boot [0x69, 0x50] []).setA 0x50).setP 0x28)) = some ⟨0xA0, 0, 0, 0x0602, 0xE8⟩
      ∧ regs (step (((boot [0x69, 0x00] []).setA 0xFF).setP 0x29)) = some ⟨0x00, 0, 0, 0x0602, 0x2B⟩
      ∧ regs (step (((boot [0x69, 0x80] []).setA 0x80).setP 0x28)) = some ⟨0x00, 0, 0, 0x0602, 0x6B⟩
      ∧ regs (step (((boot [0x69, 0x40] []).setA 0x3F).setP 0x29)) = some ⟨0x80, 0, 0, 0x0602, 0xE8⟩ := by decide

/-- Section 2.3, memory forms: `ADC $42`, `ADC $12F0,Y` crossed, `ADC ($04),Y`. -/
theorem test_adc_memory :
    regs (step ((boot [0x65, 0x42] [(0x0042, 0x20)]).setA 0xF0)) = some ⟨0x10, 0, 0, 0x0602, 0x21⟩
      ∧ stepCycles (((boot [0x79, 0xF0, 0x12] [(0x1300, 0x01)]).setA 1).setY 0x10) = some 5
      ∧ regs (step (((boot [0x71, 0x04] [(0x0004, 0x34), (0x0005, 0x12), (0x1236, 0xAC)]).setA 1).setY 2))
        = some ⟨0xAD, 0, 2, 0x0602, 0xA0⟩ := by decide

/-- ADC in the other forms (R140). -/
theorem test_adc_other_forms :
    regs (step (((boot [0x75, 0xFF] [(0x0001, 0x20)]).setA 1).setX 2)) = some ⟨0x21, 2, 0, 0x0602, 0x20⟩
      ∧ regs (step ((boot [0x6D, 0x34, 0x12] [(0x1234, 0x20)]).setA 1)) = some ⟨0x21, 0, 0, 0x0603, 0x20⟩
      ∧ regs (step (((boot [0x7D, 0xF0, 0x12] [(0x1300, 0x20)]).setA 1).setX 0x10)) = some ⟨0x21, 0x10, 0, 0x0603, 0x20⟩
      ∧ regs (step (((boot [0x61, 0x10] [(0x0015, 0x03), (0x0300, 0x20)]).setA 1).setX 4))
        = some ⟨0x21, 4, 0, 0x0602, 0x20⟩ := by decide

/-- S8 and section 2.4, rows 1, 3, 5 and 6, with V set before. -/
theorem test_cmp_imm :
    regs (step (((boot [0xC9, 0x10] []).setA 0x10).setP 0x60)) = some ⟨0x10, 0, 0, 0x0602, 0x63⟩
      ∧ regs (step (((boot [0xC9, 0x20] []).setA 0x10).setP 0x60)) = some ⟨0x10, 0, 0, 0x0602, 0xE0⟩
      ∧ regs (step (((boot [0xC9, 0x01] []).setA 0x80).setP 0x60)) = some ⟨0x80, 0, 0, 0x0602, 0x61⟩
      ∧ regs (step (((boot [0xC9, 0x01] []).setA 0xFF).setP 0x60)) = some ⟨0xFF, 0, 0, 0x0602, 0xE1⟩ := by decide

/-- Section 2.4: `CMP $12F0,X` costs 4 though the page is crossed; the other forms (R141). -/
theorem test_cmp_memory :
    (let s := ((boot [0xDD, 0xF0, 0x12] [(0x1300, 0x10)]).setA 0x10).setX 0x10;
      regs (step s) = some ⟨0x10, 0x10, 0, 0x0603, 0x23⟩ ∧ stepCycles s = some 4)
      ∧ regs (step ((boot [0xC5, 0x80] [(0x0080, 0x20)]).setA 0x10)) = some ⟨0x10, 0, 0, 0x0602, 0xA0⟩
      ∧ regs (step (((boot [0xD1, 0x04] [(0x0004, 0x34), (0x0005, 0x12), (0x1236, 0x10)]).setA 0x10).setY 2))
        = some ⟨0x10, 0, 2, 0x0602, 0x23⟩ := by decide

/-- Section 2.4: `CPX #$01`, `CPX $20`. -/
theorem test_cpx :
    regs (step (boot [0xE0, 0x01] [])) = some ⟨0, 0, 0, 0x0602, 0xA0⟩
      ∧ regs (step ((boot [0xE4, 0x20] [(0x0020, 0x03)]).setX 5)) = some ⟨0, 5, 0, 0x0602, 0x21⟩ := by decide

/-- Section 2.4: `CPY #$FF`, `CPY $0300`. -/
theorem test_cpy :
    regs (step ((boot [0xC0, 0xFF] []).setY 0xFF)) = some ⟨0, 0, 0xFF, 0x0602, 0x23⟩
      ∧ regs (step ((boot [0xCC, 0x00, 0x03] [(0x0300, 0x02)]).setY 1)) = some ⟨0, 0, 1, 0x0603, 0xA0⟩ := by decide

/-- Section 2.5, with C and V set before (P = 0x61). -/
theorem test_inx_iny :
    regs (step (((boot [0xE8] []).setX 0xFF).setP 0x61)) = some ⟨0, 0, 0, 0x0601, 0x63⟩
      ∧ regs (step (((boot [0xE8] []).setX 0x7F).setP 0x61)) = some ⟨0, 0x80, 0, 0x0601, 0xE1⟩
      ∧ regs (step (((boot [0xC8] []).setY 0xFF).setP 0x61)) = some ⟨0, 0, 0, 0x0601, 0x63⟩ := by decide

/-- Section 2.5. -/
theorem test_dex_dey :
    regs (step (((boot [0xCA] []).setX 0x00).setP 0x61)) = some ⟨0, 0xFF, 0, 0x0601, 0xE1⟩
      ∧ regs (step (((boot [0xCA] []).setX 0x01).setP 0x61)) = some ⟨0, 0, 0, 0x0601, 0x63⟩
      ∧ regs (step (((boot [0x88] []).setY 0x80).setP 0x61)) = some ⟨0, 0, 0x7F, 0x0601, 0x61⟩ := by decide

/-- Section 2.5. -/
theorem test_tax :
    regs (step ((((boot [0xAA] []).setA 0x80).setX 5).setP 0x61)) = some ⟨0x80, 0x80, 0, 0x0601, 0xE1⟩ := by decide

/-- Section 2.6: a plain pointer, a pointer at 0x02FF (5634 with `JMP_IND_PAGE_WRAP`), a pointer at 0xFFFF. -/
theorem test_jmp :
    (let s := boot [0x6C, 0xFF, 0x02] [(0x02FF, 0x34), (0x0300, 0x12), (0x0200, 0x56)];
      regs (step s) = some ⟨0, 0, 0, 0x1234, 0x20⟩ ∧ stepCycles s = some 5
        ∧ (match fsmStep { chip with jmpIndPageWrap := true } s with
            | .ok _ t => some t.pc
            | .fault _ => none) = some 0x5634)
      ∧ regs (step (boot [0x6C, 0xFF, 0xFF] [(0x0000, 0x80)])) = some ⟨0, 0, 0, 0x8000, 0x20⟩ := by decide

/-- Section 2.6: largest backward, across a page; not taken. -/
theorem test_bne :
    regs (step (boot [0xD0, 0x80] [])) = some ⟨0, 0, 0, 0x0582, 0x20⟩ ∧ stepCycles (boot [0xD0, 0x80] []) = some 4
      ∧ regs (step ((boot [0xD0, 0x80] []).setP 0x22)) = some ⟨0, 0, 0, 0x0602, 0x22⟩
      ∧ stepCycles ((boot [0xD0, 0x80] []).setP 0x22) = some 2 := by decide

/-- Section 2.6: the page is compared from the next instruction; the target wraps below 0x0000. -/
theorem test_bne_edges :
    (let s := (boot [] [(0x06FE, 0xD0)]).setPc 0x06FE;
      regs (step s) = some ⟨0, 0, 0, 0x0700, 0x20⟩ ∧ stepCycles s = some 3)
      ∧ (let s := (boot [] [(0x0000, 0xD0), (0x0001, 0xFC)]).setPc 0x0000;
      regs (step s) = some ⟨0, 0, 0, 0xFFFE, 0x20⟩ ∧ stepCycles s = some 4) := by decide

/-- Section 2.6: HLT at 0x0600 and at 0xFFFF. -/
theorem test_hlt :
    control (step (boot [0x00] [])) = some (false, 0xFF, 0x0601) ∧ stepCycles (boot [0x00] []) = some 7
      ∧ control (step ((boot [] []).setPc 0xFFFF)) = some (false, 0xFF, 0x0000) := by decide

/-- Section 2.7: unsupported opcodes. -/
theorem test_unsupported :
    faultOf (step (boot [0xEA, 0x12, 0x34] [])) = some (.unsupportedOpcode 0x0600 0xEA)
      ∧ faultOf (step (boot [0x02, 0x12, 0x34] [])) = some (.unsupportedOpcode 0x0600 0x02) := by decide

/-- Section 2.7: the bound of `load`, and a failed and a good `loadExecutable`. -/
theorem test_load :
    faultOf (load 0xFFFF [1, 2] State.reset) = some (.loadOutOfRange 0xFFFF 2)
      ∧ cell 0xFFFF (load 0xFFFE [0x12, 0x34] State.reset) = some (0x34, 0x0000, 0x20)
      ∧ faultOf (loadExecutable 0xFFFF [1, 2] State.reset) = some (.loadOutOfRange 0xFFFF 2)
      ∧ control (loadExecutable 0x0600 [0x00] State.reset) = some (true, 0xFF, 0x0600) := by decide

/-- Section 2.7: the reset state; a host step from it runs the HLT at 0x0000; under `zero` SP and P are 0. -/
theorem test_reset :
    State.reset = ⟨0, 0, 0, 0xFF, 0x0000, 0x20, false, []⟩ ∧ control (step State.reset) = some (false, 0xFF, 0x0001)
      ∧ State.resetWith { chip with resetConvention := .zero } = ⟨0, 0, 0, 0, 0x0000, 0, false, []⟩ := by decide

/-- The word placed where the step fetches is the instruction that runs (LDA #$00, byte A9). -/
theorem test_with_fetch_word : regs (step (State.reset.withFetchWord 8 0xA9)) = some ⟨0, 0, 0, 0x0002, 0x22⟩ := by decide

/-- Writing the blank byte removes the entry, and the canonical form refuses what is not canonical. -/
theorem test_memory_form :
    Memory.writeByte [(5, 1)] 0x0005 0 = [] ∧ Memory.writeByte [(5, 1), (9, 2)] 0x0007 3 = [(5, 1), (7, 3), (9, 2)]
      ∧ Memory.wf [(5, 1), (5, 2)] = false ∧ Memory.wf [(5, 0)] = false ∧ Memory.wf [(65536, 1)] = false := by decide

/-- `WORD_WRAP_AT_TOP` = fault (D6). -/
theorem test_word_at_top_fault :
    fsmStep { chip with wordWrapAtTop := .fault } ((boot [] [(0xFFFE, 0xAD)]).setPc 0xFFFE) = .fault (.wordAtTop 0xFFFF) := by
  decide

/-! ### A witness for every obligation with hypotheses -/

theorem witness_StepRunsDecodedInstruction :
    decode (fetchBytes (boot [0xE8] [])) = .ok (.inx, [0, 0]) ∧ ProgramAt (boot [0xE8] []) (encode .inx) := by
  refine ⟨by decide, ?_⟩
  intro k h
  match k, h with
  | 0, _ => rfl

theorem witness_DecodeOfEncode : (Instr.staIndY 0xFF).wf = true := by decide

theorem witness_EncodeOfDecode : decode [0x99, 0xFF, 0xFE, 0x00] = .ok (.staAbsY 0xFEFF, [0x00]) := by decide

theorem witness_LengthFromOpcodeByte :
    decode [0x99, 0xFF, 0xFE, 0x00] = .ok (.staAbsY 0xFEFF, [0x00])
      ∧ decodeOpcode ((boot [0xEA] []).byteAt (boot [0xEA] []).pc) = none := by decide

theorem witness_OperandBytesAlwaysAccepted : decodeOpcode 0xB1 = some ⟨0xB1, .lda, .indirectY, 5⟩ := by decide

theorem witness_UnsupportedExactlyOutsideTable :
    (boot [0xEC] []).byteAt (boot [0xEC] []).pc ∈ Config.tableOpcodes
      ∧ (boot [0xED] []).byteAt (boot [0xED] []).pc ∉ Config.tableOpcodes := by decide

theorem witness_InvalidAddressingUnreachable :
    Mnemonic.lda ∉ [Mnemonic.inx, .iny, .dex, .dey, .tax, .hlt] := by decide

/-- Each clause at its boundary: an operand word at 0xFFFF, a jump pointer of 0xFFFF, and word accesses at 0xFFFF. -/
theorem witness_TopWordFaultOnlyByParameter :
    let c : Config := { chip with wordWrapAtTop := .fault }
    let s := (boot [] [(0xFFFE, 0x9D)]).setPc 0xFFFE
    let j := boot [0x6C, 0xFF, 0xFF] []
    fsmStep c s = .fault (.wordAtTop 0xFFFF) ∧ s.byteAt s.pc ∈ c.implementedOpcodes
      ∧ decodeOpcode (s.byteAt s.pc) = some ⟨0x9D, .sta, .absoluteX, 5⟩ ∧ Mode.absoluteX.size = 2 ∧ s.pc = 0xFFFE
      ∧ fsmStep c j = .fault (.wordAtTop 0xFFFF) ∧ decodeOpcode (j.byteAt j.pc) = some ⟨0x6C, .jmp, .indirect, 5⟩
      ∧ c.jmpIndPageWrap = false ∧ j.mem.readWord (j.pc + 1#16) = 0xFFFF
      ∧ c.wordWrapAtTop = .fault ∧ chip.wordWrapAtTop = .wrap ∧ (0xFFFE : Addr) ≠ 0xFFFF := by decide

/-- The two-byte write of the memory's interface at the top, under both values of `WORD_WRAP_AT_TOP` (20 R46, D6). -/
theorem test_word_write_at_top :
    wordWrite { chip with wordWrapAtTop := .fault } [] 0xFFFF 0x1234 = .error (.wordAtTop 0xFFFF)
      ∧ wordWrite chip [] 0xFFFF 0x1234 = .ok [(0x0000, 0x12), (0xFFFF, 0x34)] := by decide

theorem witness_NarrowerOpcodeSetOnlyFaults :
    let c : Config := { chip with implementedOpcodes := Config.namedOpcodes }
    (boot [0xA5] []).byteAt 0x0600 ∉ c.implementedOpcodes ∧ (boot [0xA9] []).byteAt 0x0600 ∈ c.implementedOpcodes
      ∧ (boot [0xA9] []).byteAt 0x0600 ∈ Config.tableOpcodes := by decide

/-- The last clause at a jump pointer of 0x02FF, for both values of `JMP_IND_PAGE_WRAP`, and at 0xFFFF where the word read
would fault. -/
theorem witness_PointerWrapParameters :
    (0xFE : Byte) ≠ 0xFF ∧ loByte 0x02FE ≠ 0xFF ∧ loByte 0x02FF = 0xFF
      ∧ (let s := boot [0x6C, 0xFF, 0x02] []
        decodeOpcode (s.byteAt s.pc) = some ⟨0x6C, .jmp, .indirect, 5⟩ ∧ s.byteAt s.pc ∈ chip.implementedOpcodes
          ∧ s.mem.readWord (s.pc + 1#16) = 0x02FF ∧ chip.wordWrapAtTop = .wrap ∧ chip.jmpIndPageWrap = false)
      ∧ (let c : Config := { chip with jmpIndPageWrap := true, wordWrapAtTop := .fault }
        (boot [0x6C, 0xFF, 0xFF] []).pc ≠ 0xFFFE ∧ c.jmpIndPageWrap = true ∧ c.wordWrapAtTop = .fault) := by decide

theorem witness_CycleCountBounds : fsmStep chip (boot [0x00] []) = .ok 7 (halt ((boot [0x00] []).advance 1)) := rfl

theorem witness_CycleCounts :
    (∃ t, fsmStep chip ((boot [0xBD, 0xF0, 0x12] []).setX 0x10) = .ok 5 t)
      ∧ decodeOpcode 0xBD = some ⟨0xBD, .lda, .absoluteX, 4⟩ ∧ Mnemonic.lda ∈ [Mnemonic.lda, .ldx, .ldy, .adc]
      ∧ (∃ r, resolve chip .absoluteX 0x0600 0xBD (((boot [0xBD, 0xF0, 0x12] []).setX 0x10).advance 1) = .ok r
          ∧ r.crossed = true)
      ∧ (∃ t, fsmStep chip (boot [0xD0, 0x80] []) = .ok 4 t) ∧ decodeOpcode 0xD0 = some ⟨0xD0, .bne, .relative, 2⟩
      ∧ (∃ t, fsmStep chip (boot [0xE8] []) = .ok 2 t) ∧ decodeOpcode 0xE8 = some ⟨0xE8, .inx, .implied, 2⟩
      ∧ Mnemonic.inx ∉ [Mnemonic.lda, .ldx, .ldy, .adc, .bne] :=
  ⟨⟨_, rfl⟩, rfl, by decide, ⟨_, rfl, rfl⟩, ⟨_, rfl⟩, rfl, ⟨_, rfl⟩, rfl, by decide⟩

theorem witness_canonical_memory : Memory.wf [(0x0000, 1), (0xFFFF, 2)] = true := by decide

/-- Two canonical memories that read alike: one written in two orders. -/
theorem witness_EqualReadsEqualMemories :
    let m := Memory.writeByte (Memory.writeByte [] 0xFFFF 2) 0x0000 1
    let m' := Memory.writeByte (Memory.writeByte [] 0x0000 1) 0xFFFF 2
    m.wf = true ∧ m'.wf = true ∧ ∀ k : Addr, m.readByte k = m'.readByte k :=
  ⟨by decide, by decide, fun _ => rfl⟩

theorem witness_WordReadAndWrite :
    Memory.wf [] = true ∧ (0x0001 : Addr) ≠ 0xFFFF ∧ (0x0001 : Addr) ≠ 0xFFFF + 1#16 := by decide

theorem witness_LoadRoundTrip :
    State.reset.mem.wf = true ∧ (∃ t, load 0xFFFE [0x12, 0x34] State.reset = .next t)
      ∧ (1 < [(0x12 : Byte), 0x34].length)
      ∧ ∀ w ∈ [((0x0000 : Addr), (5 : Byte))], w.1 ≠ 0xFFFE + BitVec.ofNat 16 1 :=
  ⟨rfl, ⟨_, rfl⟩, by decide, by simp⟩

theorem witness_LoadBoundAndFrame :
    State.reset.mem.wf = true ∧ (0xFFFE : Addr).toNat + [(0x12 : Byte), 0x34].length ≤ 65536
      ∧ ((0xFFFD : Addr).toNat < (0xFFFE : Addr).toNat) ∧ 65536 < (0xFFFF : Addr).toNat + [(0x12 : Byte), 0x34].length
      ∧ (0x0600 : Addr).toNat + [(0x12 : Byte), 0x34].length ≤ (0x0602 : Addr).toNat := by decide

theorem witness_LoadExecutableEffect :
    State.reset.mem.wf = true ∧ (0x0600 : Addr).toNat + [(0x00 : Byte)].length ≤ 65536 ∧ 0 < [(0x00 : Byte)].length
      ∧ (0x0601 : Addr).toNat ≥ (0x0600 : Addr).toNat + [(0x00 : Byte)].length
      ∧ 65536 < (0xFFFF : Addr).toNat + [(0x12 : Byte), 0x34].length := by decide

theorem witness_SetNZBits : 1 ≤ (0x7F : Byte).toNat ∧ (0x7F : Byte).toNat ≤ 0x7F := by decide

theorem witness_StackPointerUntouched :
    (∃ t, HostOp.perform (.writeReg .sp 0x10) State.reset = .next t ∧ t.sp ≠ State.reset.sp)
      ∧ (∃ t, HostOp.perform .reset ((boot [] []).setSp 0x10) = .next t ∧ t.sp ≠ ((boot [] []).setSp 0x10).sp) :=
  ⟨⟨_, rfl, by decide⟩, ⟨_, rfl, by decide⟩⟩

theorem witness_FlagUse : (Instr.adcImm 0).mnemonic = .adc ∧ (0x05 : Byte) ≠ 0 := by decide

theorem witness_FlagUse_reads_carry : ¬Ignores (fun s b => s.setP (assignFlag .c b s.p)) (.adcImm 0) := by
  rintro (h | h)
  · exact absurd (congrArg regs (h (boot [] []) true)) (by decide)
  · exact absurd (congrArg regs (h (boot [] []) true)) (by decide)

theorem witness_RunFlagUse :
    (∃ t, HostOp.perform (.loadExecutable 0x0600 [0x00]) State.reset = .next t ∧ State.reset.run = false ∧ t.run = true)
      ∧ (∃ t, HostOp.perform .step (boot [0x00] []) = .next t ∧ (boot [0x00] []).run = true ∧ t.run = false) :=
  ⟨⟨_, rfl, rfl, rfl⟩, ⟨_, rfl, rfl, rfl⟩⟩

theorem witness_store_results : (boot [0x8D, 0x20, 0x00] []).mem.wf = true := by decide

/-- A byte that a store at 0x0020 leaves alone. -/
theorem witness_store_frame : (0x0021 : Addr) ≠ (eaAbsolute 0x0020).ea := by decide

theorem witness_BneResult : (boot [] []).p.getLsbD 1 = false ∧ ((boot [] []).setP 0x22).p.getLsbD 1 = true := by decide

theorem witness_resolver_modes : chip.wordWrapAtTop = .wrap := by decide

theorem witness_ResetValues :
    chip.resetConvention = .powerOn ∧ { chip with resetConvention := .zero }.resetConvention = ResetConvention.zero := by
  decide

theorem witness_StepKeepsStoredState :
    Kept 0xFF 0x20 (boot [0x8D, 0x20, 0x00] []) ∧ ∃ t, step (boot [0x8D, 0x20, 0x00] []) = .next t :=
  ⟨⟨by decide, by decide, by decide⟩, ⟨_, rfl⟩⟩

theorem witness_HostOpsKeepMemoryForm :
    State.reset.mem.wf = true ∧ ∃ t, HostOp.perform (.load 0x0010 [0xF0]) State.reset = .next t := ⟨rfl, ⟨_, rfl⟩⟩

theorem witness_FaultLeavesState :
    HostOp.perform .step (boot [0xEA] []) = .fault (.unsupportedOpcode 0x0600 0xEA)
      ∧ HostOp.perform (.loadExecutable 0xFFFF [1, 2]) (boot [] []) = .fault (.loadOutOfRange 0xFFFF 2) := ⟨rfl, rfl⟩

theorem witness_HostAccess : HostReg.p ≠ HostReg.a ∧ Flag.u ≠ Flag.c := by decide

theorem witness_runs :
    RunsTo (boot [0x00] []) .halted (halt ((boot [0x00] []).advance 1)) ∧ (boot [0x00] []).run = true
      ∧ RunsTo (boot [0xEA] []) (.faulted (.unsupportedOpcode 0x0600 0xEA)) (boot [0xEA] [])
      ∧ (boot [0xEA] []).run = true :=
  ⟨.stepped rfl rfl (.halted rfl), rfl, .faulted rfl rfl, rfl⟩

theorem witness_BranchToSelfDiverges :
    (boot [0xD0, 0xFE] []).run = true ∧ (boot [0xD0, 0xFE] []).p.getLsbD 1 = false
      ∧ ProgramAt (boot [0xD0, 0xFE] []) (encode (.bne 0xFE)) := by
  refine ⟨by decide, by decide, ?_⟩
  intro k h
  match k, h with
  | 0, _ => rfl
  | 1, _ => rfl

/-- P4's shape, A holding the byte of INX and the store being to the byte after the STA; an operand byte changed; a store
over the STA's own bytes; and a load of the next opcode. -/
theorem witness_SelfModifyingStoreIsFetched :
    let s := (boot [0x8D, 0x03, 0x06] []).setA 0xE8
    s.mem.wf = true ∧ storedAt (.staAbs 0x0603) s = some (0x0603, 0xE8) ∧ ProgramAt s (encode (.staAbs 0x0603))
      ∧ decode (bytesFrom (afterStore s 0x0603 0xE8) 0x0603) = .ok (.inx, [0, 0])
      ∧ decode (bytesFrom (afterStore (boot [0x8D, 0x04, 0x06, 0xA9, 0x00] []) 0x0604 0xE8) 0x0603) = .ok (.ldaImm 0xE8, [0])
      ∧ storedAt (.staAbs 0x0600) s = some (0x0600, 0xE8)
      ∧ (∃ t, load 0x0600 [0xE8] s = .next t)
      ∧ decode (bytesFrom (afterLoad s 0x0600 [0xE8]) s.pc) = .ok (.inx, [0x03, 0x06]) := by
  refine ⟨by decide, by decide, ?_, by decide, by decide, by decide, ⟨_, rfl⟩, by decide⟩
  intro k h
  match k, h with
  | 0, _ => rfl
  | 1, _ => rfl
  | 2, _ => rfl

end Sys2Proof.Tests
end

section
/-! SUPPORT. The eight flags of P as bits (10_state.md R17, R22 to R24): each helper says which bit it reads or writes. -/

namespace Sys2Proof.Proofs

open Sys2Proof.Machine Sys2Proof.Safety

theorem flagBit_lt (f : Flag) : flagBit f < 8 := by
  cases f <;> decide

/-- A flag's mask is the one bit of R17. -/
theorem mask_eq_twoPow (f : Flag) : f.mask = BitVec.twoPow 8 (flagBit f) := by
  cases f <;> rfl

theorem toNat_mask (f : Flag) : f.mask.toNat = 2 ^ flagBit f := by
  cases f <;> rfl

theorem getLsbD_mask (f : Flag) {k : Nat} (hk : k < 8) : f.mask.getLsbD k = decide (k = flagBit f) := by
  simp [mask_eq_twoPow, hk]

theorem checkFlag_eq_getLsbD (f : Flag) (p : Byte) : checkFlag f p = p.getLsbD (flagBit f) := by
  have hmask : f.mask ≠ 0#8 := by cases f <;> decide
  simp only [checkFlag, mask_eq_twoPow, BitVec.and_twoPow] at hmask ⊢
  cases p.getLsbD (flagBit f) <;> simp [hmask]

theorem getLsbD_setFlag (f : Flag) (p : Byte) {k : Nat} (hk : k < 8) :
    (setFlag f p).getLsbD k = (decide (k = flagBit f) || p.getLsbD k) := by
  rw [setFlag, BitVec.getLsbD_or, getLsbD_mask f hk, Bool.or_comm]

theorem getLsbD_clearFlag (f : Flag) (p : Byte) {k : Nat} (hk : k < 8) :
    (clearFlag f p).getLsbD k = (!decide (k = flagBit f) && p.getLsbD k) := by
  rw [clearFlag, BitVec.getLsbD_and, BitVec.getLsbD_not, getLsbD_mask f hk, Bool.and_comm]
  simp [hk]

/-- A flag write gives its own bit the condition and keeps every other bit. -/
theorem getLsbD_assignFlag (f : Flag) (cond : Bool) (p : Byte) {k : Nat} (hk : k < 8) :
    (assignFlag f cond p).getLsbD k = if k = flagBit f then cond else p.getLsbD k := by
  cases cond with
  | false => rw [assignFlag, if_neg Bool.false_ne_true, getLsbD_clearFlag f p hk]; split <;> simp [*]
  | true => rw [assignFlag, if_pos rfl, getLsbD_setFlag f p hk]; split <;> simp [*]

@[simp] theorem checkFlag_assignFlag_same (f : Flag) (cond : Bool) (p : Byte) :
    checkFlag f (assignFlag f cond p) = cond := by
  rw [checkFlag_eq_getLsbD, getLsbD_assignFlag f cond p (flagBit_lt f), if_pos rfl]

theorem checkFlag_assignFlag_of_ne {f g : Flag} (h : f ≠ g) (cond : Bool) (p : Byte) :
    checkFlag f (assignFlag g cond p) = checkFlag f p := by
  have hbit : flagBit f ≠ flagBit g := by revert h; cases f <;> cases g <;> decide
  rw [checkFlag_eq_getLsbD, getLsbD_assignFlag g cond p (flagBit_lt f), if_neg hbit, checkFlag_eq_getLsbD]

/-- Z after `setNZ(v)` (R120). -/
@[simp] theorem checkFlag_z_setNZ (v p : Byte) : checkFlag .z (setNZ v p) = (v == 0#8) := by
  rw [setNZ, checkFlag_assignFlag_of_ne (by decide), checkFlag_assignFlag_same]

/-- Settles O21: each mask is the one bit of its flag, and the helpers act bit by bit. -/
theorem flagHelpers : Obligations.FlagHelpers := fun f p =>
  ⟨toNat_mask f, checkFlag_eq_getLsbD f p, fun _ hk => ⟨getLsbD_setFlag f p hk, getLsbD_clearFlag f p hk⟩⟩

end Sys2Proof.Proofs
end

section
/-! SUPPORT. `exec` in the form of 40_fetch_decode_execute.md R90: an instruction is the handler of its mnemonic, on the
effective address and operand byte of its mode, at the state whose PC is past it. `exec_eq_after` is the one lemma over the
61 instructions; what follows it splits on the 18 mnemonics and the 12 modes instead. -/

namespace Sys2Proof.Proofs

open Sys2Proof.Machine Sys2Proof.Safety

/-- The one-byte operand, 0 where there is none. -/
def byteOf : Operand → Byte
  | .byte d => d
  | .none | .word _ => 0

/-- The 16-bit operand, 0 where there is none. -/
def wordOf : Operand → Addr
  | .word a => a
  | .none | .byte _ => 0

/-- The effective address of a mode at a state whose PC is the opcode's address; Implied has none and gives 0. -/
def modeAddr (mode : Mode) (o : Operand) (s : State) : Addr :=
  match mode with
  | .implied => 0
  | .immediate | .relative => (eaOperand (s.pc + 1#16)).ea
  | .zeroPage => (eaZeroPage (byteOf o)).ea
  | .zeroPageX => (eaZeroPageX (byteOf o) s).ea
  | .zeroPageY => (eaZeroPageY (byteOf o) s).ea
  | .absolute => (eaAbsolute (wordOf o)).ea
  | .absoluteX => (eaAbsoluteX (wordOf o) s).ea
  | .absoluteY => (eaAbsoluteY (wordOf o) s).ea
  | .indirect => (eaIndirect (wordOf o)).ea
  | .indirectX => (eaIndirectX chip (byteOf o) s).ea
  | .indirectY => (eaIndirectY chip (byteOf o) s).ea

/-- The byte a handler works on: the operand itself in Immediate and Relative mode (log 1), the byte at the effective
address otherwise. -/
def modeByte (mode : Mode) (o : Operand) (s : State) : Byte :=
  match mode with
  | .immediate | .relative => byteOf o
  | mode => s.byteAt (modeAddr mode o s)

/-- The handler of a mnemonic on an effective address and an operand byte, at a state whose PC is the next instruction. -/
def act (m : Mnemonic) (ea : Addr) (v : Byte) (s : State) : State :=
  match m with
  | .lda => loadA v s
  | .ldx => loadX v s
  | .ldy => loadY v s
  | .sta => store ea s.a s
  | .stx => store ea s.x s
  | .sty => store ea s.y s
  | .adc => addCarry v s
  | .cmp => compare s.a v s
  | .cpx => compare s.x v s
  | .cpy => compare s.y v s
  | .inx => incX s
  | .iny => incY s
  | .dex => decX s
  | .dey => decY s
  | .tax => transferAX s
  | .jmp => jumpThrough chip ea s
  | .bne => branchNotEqual v s
  | .hlt => halt s

/-- The state an instruction leaves. -/
def after (i : Instr) (s : State) : State :=
  act i.mnemonic (modeAddr i.mode i.operand s) (modeByte i.mode i.operand s) (s.advance i.length)

theorem exec_eq_after (i : Instr) (s : State) : exec i s = .next (after i s) := by
  cases i <;> rfl

theorem mode_mem_modes (i : Instr) : i.mode ∈ i.mnemonic.modes := by
  cases i <;> simp [Instr.mode, Instr.mnemonic, Instr.parts, Mnemonic.modes]

theorem writes_iff_after {α : Type} (get : State → α) (i : Instr) : Writes get i ↔ ∃ s, get (after i s) ≠ get s := by
  simp [Writes, exec_eq_after]

theorem ignores_iff_after {α : Type} (set : State → α → State) (i : Instr) :
    Ignores set i ↔
      (∀ s v, after i (set s v) = set (after i s) v) ∨ (∀ s v, after i (set s v) = after i s) := by
  simp [Ignores, exec_eq_after, mapNext]

/-- An instruction does not ignore a piece of state that some observation of its result tells apart. -/
theorem not_ignores_of_observed {α β : Type} {set : State → α → State} {i : Instr} (obs : State → β)
    (hobs : ∀ s v, obs (set s v) = obs s) {s : State} {v w : α}
    (hne : obs (after i (set s v)) ≠ obs (after i (set s w))) : ¬Ignores set i := by
  rw [ignores_iff_after]
  rintro (h | h)
  · exact hne (by rw [h, h, hobs, hobs])
  · exact hne (by rw [h, h])

/-- In blank memory the operand byte is the same at every state. -/
theorem modeByte_of_blank_memory (mode : Mode) (o : Operand) {s t : State} (hs : s.mem = []) (ht : t.mem = []) :
    modeByte mode o s = modeByte mode o t := by
  unfold modeByte
  split
  · rfl
  · rfl
  · simp [State.byteAt, Memory.readByte, Memory.read, hs, ht]

theorem readByte_writeByte {m : Memory} (h : m.wf = true) (k j : Addr) (v : Byte) :
    (m.writeByte k v).readByte j = if j = k then v else m.readByte j := by
  simp only [Memory.readByte, Memory.writeByte, Memory.read_write h, BitVec.toNat_inj]

theorem adc8_sum (a m : Byte) (cin : Bool) : (adc8 a m cin).sum = a + m + BitVec.ofNat 8 cin.toNat := by
  simp [adc8, BitVec.ofNat_add]

end Sys2Proof.Proofs
end

section
/-! SUPPORT. Which instructions write and read A, X and Y (10_state.md R10 to R12), for the three registers at once. -/

namespace Sys2Proof.Proofs

open Sys2Proof.Machine Sys2Proof.Safety

/-- The registers that instructions compute with. -/
inductive DataReg where
  | a | x | y

namespace DataReg

def get : DataReg → State → Byte
  | .a => State.a
  | .x => State.x
  | .y => State.y

def set : DataReg → State → Byte → State
  | .a => State.setA
  | .x => State.setX
  | .y => State.setY

/-- The mnemonics that write the register (R10 to R12). -/
def writers : DataReg → List Mnemonic
  | .a => [.lda, .adc]
  | .x => [.ldx, .inx, .dex, .tax]
  | .y => [.ldy, .iny, .dey]

/-- The mnemonics whose handler reads the register (R10 to R12). -/
def readers : DataReg → List Mnemonic
  | .a => [.sta, .adc, .cmp, .tax]
  | .x => [.stx, .cpx, .inx, .dex]
  | .y => [.sty, .cpy, .iny, .dey]

/-- The modes in which the resolver reads the register (R10 to R12). -/
def modes : DataReg → List Mode
  | .a => []
  | .x => [.zeroPageX, .absoluteX, .indirectX]
  | .y => [.zeroPageY, .absoluteY, .indirectY]

variable (r : DataReg) (s : State) (w : Byte)

@[simp] theorem get_set : r.get (r.set s w) = w := by cases r <;> rfl
@[simp] theorem set_pc : (r.set s w).pc = s.pc := by cases r <;> rfl
@[simp] theorem set_p : (r.set s w).p = s.p := by cases r <;> rfl
@[simp] theorem set_mem : (r.set s w).mem = s.mem := by cases r <;> rfl
@[simp] theorem get_advance (n : Nat) : r.get (s.advance n) = r.get s := by cases r <;> rfl
theorem advance_set (n : Nat) : (r.set s w).advance n = r.set (s.advance n) w := by cases r <;> rfl

end DataReg

/-! ### The writers -/

theorem act_get_of_not_writer {r : DataReg} {m : Mnemonic} (h : m ∉ r.writers) (ea : Addr) (v : Byte) (s : State) :
    r.get (act m ea v s) = r.get s := by
  cases m with
  | bne => cases r <;> simp [DataReg.get, act, branchNotEqual_eq]
  | _ => cases r <;> simp [DataReg.writers] at h <;> rfl

/-- Every writer changes its register at some state of blank memory, whatever operand byte it is handed. -/
theorem act_get_ne_of_writer {r : DataReg} {m : Mnemonic} (h : m ∈ r.writers) (v : Byte) :
    ∃ s : State, s.mem = [] ∧ ∀ ea n, r.get (act m ea v (s.advance n)) ≠ r.get s := by
  have hload : v ≠ v + 1#8 := by bv_omega
  cases r <;> simp only [DataReg.writers, List.mem_cons, List.not_mem_nil, or_false] at h
  case a =>
    rcases h with rfl | rfl
    · exact ⟨State.reset.setA (v + 1#8), rfl, fun _ _ => hload⟩
    · refine ⟨State.reset.setP (assignFlag .c (v == 0#8) 0), rfl, fun ea n => ?_⟩
      have hsum : v + BitVec.ofNat 8 (v == 0#8).toNat ≠ 0#8 := by
        by_cases hv : v = 0#8
        · simp [hv]
        · simpa [beq_false_of_ne hv] using hv
      simpa [DataReg.get, act, addCarry_eq, adc8_sum, State.reset, State.resetWith] using hsum
  case x =>
    rcases h with rfl | rfl | rfl | rfl
    · exact ⟨State.reset.setX (v + 1#8), rfl, fun _ _ => hload⟩
    · exact ⟨State.reset, rfl, fun _ _ => show inc8 0#8 ≠ 0#8 by decide⟩
    · exact ⟨State.reset, rfl, fun _ _ => show dec8 0#8 ≠ 0#8 by decide⟩
    · exact ⟨State.reset.setA 1, rfl, fun _ _ => show 1#8 ≠ 0#8 by decide⟩
  case y =>
    rcases h with rfl | rfl | rfl
    · exact ⟨State.reset.setY (v + 1#8), rfl, fun _ _ => hload⟩
    · exact ⟨State.reset, rfl, fun _ _ => show inc8 0#8 ≠ 0#8 by decide⟩
    · exact ⟨State.reset, rfl, fun _ _ => show dec8 0#8 ≠ 0#8 by decide⟩

theorem writes_iff_writer (r : DataReg) (i : Instr) : Writes r.get i ↔ i.mnemonic ∈ r.writers := by
  rw [writes_iff_after]
  constructor
  · rintro ⟨s, hs⟩
    by_contra h
    exact hs (by rw [after, act_get_of_not_writer h, DataReg.get_advance])
  · intro h
    obtain ⟨s, hmem, hne⟩ := act_get_ne_of_writer h (modeByte i.mode i.operand State.reset)
    refine ⟨s, ?_⟩
    rw [after, modeByte_of_blank_memory _ _ hmem (t := State.reset) rfl]
    exact hne _ _

/-! ### What does not read a register -/

/-- A handler that neither reads nor writes the register carries it along. -/
theorem act_set_of_untouched {r : DataReg} {m : Mnemonic} (hw : m ∉ r.writers) (hr : m ∉ r.readers) (ea : Addr)
    (v : Byte) (s : State) (w : Byte) : act m ea v (r.set s w) = r.set (act m ea v s) w := by
  cases m with
  | bne => simp only [act, branchNotEqual_eq, DataReg.set_p]; cases r <;> rfl
  | _ => cases r <;> simp [DataReg.writers, DataReg.readers] at hw hr <;> rfl

/-- A handler that writes the register without reading it forgets what it held. -/
theorem act_set_of_overwritten {r : DataReg} {m : Mnemonic} (hw : m ∈ r.writers) (hr : m ∉ r.readers) (ea : Addr)
    (v : Byte) (s : State) (w : Byte) : act m ea v (r.set s w) = act m ea v s := by
  cases r <;> cases m <;> simp [DataReg.writers, DataReg.readers] at hw hr <;> rfl

theorem modeAddr_set {r : DataReg} {mode : Mode} (h : mode ∉ r.modes) (o : Operand) (s : State) (w : Byte) :
    modeAddr mode o (r.set s w) = modeAddr mode o s := by
  cases r <;> cases mode <;> simp [DataReg.modes] at h <;> rfl

theorem modeByte_set {r : DataReg} {mode : Mode} (h : mode ∉ r.modes) (o : Operand) (s : State) (w : Byte) :
    modeByte mode o (r.set s w) = modeByte mode o s := by
  unfold modeByte
  split
  · rfl
  · rfl
  · rw [modeAddr_set h, State.byteAt, DataReg.set_mem, State.byteAt]

theorem ignores_of_not_read {r : DataReg} {i : Instr} (hr : i.mnemonic ∉ r.readers) (hmode : i.mode ∉ r.modes) :
    Ignores r.set i := by
  have hafter : ∀ s w, after i (r.set s w)
      = act i.mnemonic (modeAddr i.mode i.operand s) (modeByte i.mode i.operand s) (r.set (s.advance i.length) w) :=
    fun s w => by rw [after, modeAddr_set hmode, modeByte_set hmode, DataReg.advance_set]
  rw [ignores_iff_after]
  by_cases hw : i.mnemonic ∈ r.writers
  · exact .inr fun s w => by rw [hafter, act_set_of_overwritten hw hr, after]
  · exact .inl fun s w => by rw [hafter, act_set_of_untouched hw hr, after]

/-! ### The handlers that read a register -/

theorem checkFlag_c_reset : checkFlag .c State.reset.p = false := by decide

/-- The value of the register that a reading handler answers with Z set, on the operand byte `v` and with C clear. -/
def pivot (m : Mnemonic) (v : Byte) : Byte :=
  match m with
  | .adc => -v
  | .cmp | .cpx | .cpy => v
  | .inx | .iny => 0xFF
  | .dex | .dey => 1
  | _ => 0

theorem z_act_of_reader {r : DataReg} {m : Mnemonic} (hr : m ∈ r.readers) (hs : m ∉ [Mnemonic.sta, .stx, .sty])
    (ea : Addr) (v : Byte) {s : State} (hc : checkFlag .c s.p = false) :
    checkFlag .z (act m ea v s).p = (r.get s == pivot m v) := by
  have hadd (a : Byte) : a + v = 0#8 ↔ a = -v := by bv_omega
  have hsub (a : Byte) : a - v = 0#8 ↔ a = v := by bv_omega
  have hinc (a : Byte) : a + 1#8 = 0#8 ↔ a = 0xFF#8 := by bv_omega
  have hdec (a : Byte) : a - 1#8 = 0#8 ↔ a = 1#8 := by bv_omega
  rw [Bool.eq_iff_iff, beq_iff_eq]
  cases r <;> cases m <;> simp [DataReg.readers] at hr hs
  case a.adc => simp [act, addCarry_eq, adc8_sum, hc, hadd, pivot, DataReg.get]
  case a.tax => simp [act, transferAX_eq, pivot, DataReg.get]
  case a.cmp | x.cpx | y.cpy => simp [act, compare_eq, cmp8, hsub, pivot, DataReg.get]
  case x.inx | y.iny => simp [act, incX_eq, incY_eq, inc8, hinc, pivot, DataReg.get]
  case x.dex | y.dey => simp [act, decX_eq, decY_eq, dec8, hdec, pivot, DataReg.get]

theorem mem_act_of_store_reader {r : DataReg} {m : Mnemonic} (hr : m ∈ r.readers) (hs : m ∈ [Mnemonic.sta, .stx, .sty])
    (ea : Addr) (v : Byte) (s : State) : (act m ea v s).mem = s.mem.writeByte ea (r.get s) := by
  cases r <;> cases m <;> simp [DataReg.readers] at hr hs <;> rfl

theorem not_ignores_of_reader {r : DataReg} {i : Instr} (hr : i.mnemonic ∈ r.readers) : ¬Ignores r.set i := by
  by_cases hs : i.mnemonic ∈ [Mnemonic.sta, .stx, .sty]
  · refine not_ignores_of_observed State.mem (DataReg.set_mem r) (s := State.reset) (v := 0) (w := 1) ?_
    simp only [after, mem_act_of_store_reader hr hs, DataReg.get_advance, DataReg.get_set, State.advance_mem,
      DataReg.set_mem]
    simp [State.reset, State.resetWith, Memory.writeByte, Memory.write, Memory.blank]
  · set v := modeByte i.mode i.operand State.reset
    have hbyte : ∀ w, modeByte i.mode i.operand (r.set State.reset w) = v := fun w =>
      modeByte_of_blank_memory _ _ (DataReg.set_mem r _ w) rfl
    have hz : ∀ w, checkFlag .z (after i (r.set State.reset w)).p = (w == pivot i.mnemonic v) := fun w => by
      rw [after, hbyte, z_act_of_reader hr hs _ _ (by simp [checkFlag_c_reset]), DataReg.get_advance, DataReg.get_set]
    refine not_ignores_of_observed (fun s => checkFlag .z s.p) (fun s w => by rw [DataReg.set_p]) (s := State.reset)
      (v := pivot i.mnemonic v) (w := pivot i.mnemonic v + 1#8) ?_
    simp [hz]

/-! ### The modes that read an index register -/

/-- A pointer to 0x1000 at the zero-page address `d`, and the byte 1 at 0x1000. -/
def pointerProbe (d : Byte) : Memory := [(d.toNat + 1, 0x10), (0x1000, 1)]

/-- A memory in which an indexed mode finds the byte 1 at index 0 and the byte 0 at index 2. -/
def probe (mode : Mode) (o : Operand) : Memory :=
  match mode with
  | .absoluteX | .absoluteY => [((wordOf o).toNat, 1)]
  | .indirectX | .indirectY => pointerProbe (byteOf o)
  | _ => [((byteOf o).toNat, 1)]

theorem probe_absolute (a : Addr) :
    Memory.readByte [(a.toNat, 1)] (indexed a 0).ea = 1 ∧ Memory.readByte [(a.toNat, 1)] (indexed a 2).ea = 0 := by
  have h2 : a.toNat ≠ (a.toNat + 2) % 65536 := by have := a.isLt; omega
  simp [Memory.readByte, Memory.read, indexed, zext16, h2, Memory.blank]

theorem probe_zeroPage (d : Byte) :
    Memory.readByte [(d.toNat, 1)] (zext16 (d + 0)) = 1 ∧ Memory.readByte [(d.toNat, 1)] (zext16 (d + 2)) = 0 := by
  have h2 : d.toNat ≠ (d.toNat + 2) % 256 := by have := d.isLt; omega
  simp [Memory.readByte, Memory.read, h2, Memory.blank]

theorem readByte_pointerProbe (d : Byte) (k : Addr) :
    (pointerProbe d).readByte k = if d.toNat + 1 = k.toNat then 0x10 else if 0x1000 = k.toNat then 1 else 0 := rfl

theorem readWord_pointerProbe (d : Byte) : (pointerProbe d).readWord (zext16 d) = 0x1000 := by
  have hd := d.isLt
  have hlow : (zext16 d).toNat = d.toNat := toNat_zext16 d
  have hhigh : (zext16 d + 1#16).toNat = d.toNat + 1 := by bv_omega
  rw [Memory.readWord, readByte_pointerProbe, readByte_pointerProbe, hlow, hhigh, if_neg (by omega), if_neg (by omega),
    if_pos rfl]
  rfl

/-- Two cells on in the zero page the pointer is 0. -/
theorem readWord_pointerProbe_next (d : Byte) : (pointerProbe d).readWord (zext16 (d + 2#8)) = 0 := by
  have hd := d.isLt
  have hlow : (zext16 (d + 2#8)).toNat = (d.toNat + 2) % 256 := by rw [toNat_zext16]; exact BitVec.toNat_add ..
  have hhigh : (zext16 (d + 2#8) + 1#16).toNat = (d.toNat + 2) % 256 + 1 := by bv_omega
  rw [Memory.readWord, readByte_pointerProbe, readByte_pointerProbe, hlow, hhigh, if_neg (by omega), if_neg (by omega),
    if_neg (by omega), if_neg (by omega)]
  rfl

theorem probe_indirectX (d : Byte) :
    (pointerProbe d).readByte ((pointerProbe d).readWord (zext16 (d + 0#8))) = 1
      ∧ (pointerProbe d).readByte ((pointerProbe d).readWord (zext16 (d + 2#8))) = 0 := by
  have hd := d.isLt
  rw [BitVec.add_zero, readWord_pointerProbe, readWord_pointerProbe_next, readByte_pointerProbe, readByte_pointerProbe]
  exact ⟨by rw [if_neg (by simp; omega)]; rfl, by simp⟩

theorem probe_indirectY (d : Byte) :
    (pointerProbe d).readByte (indexed ((pointerProbe d).readWord (zext16 d)) 0).ea = 1
      ∧ (pointerProbe d).readByte (indexed ((pointerProbe d).readWord (zext16 d)) 2).ea = 0 := by
  have hd := d.isLt
  have h0 : (indexed 0x1000 0).ea = 0x1000 := rfl
  have h2 : (indexed 0x1000 2).ea = 0x1002 := rfl
  rw [readWord_pointerProbe, h0, h2, readByte_pointerProbe, readByte_pointerProbe]
  exact ⟨by rw [if_neg (by simp; omega)]; rfl, by rw [if_neg (by simp; omega)]; rfl⟩

/-- The state after reset with the probe of the instruction as its memory. -/
def probeState (i : Instr) : State := State.reset.setMem (probe i.mode i.operand)

@[simp] theorem probeState_p (i : Instr) : (probeState i).p = State.reset.p := rfl

@[simp] theorem probeState_mem (i : Instr) : (probeState i).mem = probe i.mode i.operand := rfl

/-- The probe tells index 0 from index 2 in every mode that reads the register. -/
theorem probe_tells {r : DataReg} {i : Instr} (h : i.mode ∈ r.modes) :
    (probeState i).byteAt (modeAddr i.mode i.operand (r.set (probeState i) 0)) = 1
      ∧ (probeState i).byteAt (modeAddr i.mode i.operand (r.set (probeState i) 2)) = 0 := by
  simp only [State.byteAt, probeState_mem]
  generalize hs : probeState i = s
  have hmem : s.mem = probe i.mode i.operand := by rw [← hs, probeState_mem]
  generalize i.mode = mode at h hmem ⊢
  generalize i.operand = o at hmem ⊢
  cases r <;> cases mode <;> simp [DataReg.modes] at h
  case x.absoluteX | y.absoluteY => exact probe_absolute (wordOf o)
  case x.zeroPageX | y.zeroPageY => exact probe_zeroPage (byteOf o)
  case x.indirectX =>
    simp only [modeAddr, eaIndirectX, DataReg.set, State.setX_mem, State.setX_x, hmem, zpPointer_chip]
    exact probe_indirectX (byteOf o)
  case y.indirectY =>
    simp only [modeAddr, eaIndirectY, DataReg.set, State.setY_mem, State.setY_y, hmem, zpPointer_chip]
    exact probe_indirectY (byteOf o)

theorem modeByte_of_indexed {r : DataReg} {mode : Mode} (h : mode ∈ r.modes) (o : Operand) (s : State) :
    modeByte mode o s = s.byteAt (modeAddr mode o s) := by
  cases r <;> cases mode <;> simp [DataReg.modes] at h <;> rfl

/-- The instructions that index with a register: the ones whose Z follows the byte they read, and stores of another
register. -/
theorem indexed_mnemonic {r : DataReg} {i : Instr} (h : i.mode ∈ r.modes) :
    i.mnemonic ∈ [Mnemonic.lda, .ldx, .ldy, .adc, .cmp]
      ∨ i.mnemonic ∈ [Mnemonic.sta, .stx, .sty] ∧ i.mnemonic ∉ r.readers := by
  have table : ∀ mode ∈ i.mnemonic.modes, mode ∈ r.modes →
      i.mnemonic ∈ [Mnemonic.lda, .ldx, .ldy, .adc, .cmp]
        ∨ i.mnemonic ∈ [Mnemonic.sta, .stx, .sty] ∧ i.mnemonic ∉ r.readers := by
    cases r <;> cases i.mnemonic <;> decide
  exact table i.mode (mode_mem_modes i) h

/-- Where A is 0 and C is clear, Z after a load, an add or a compare of A says whether the operand byte is 0. -/
theorem z_act_of_byte {m : Mnemonic} (hm : m ∈ [Mnemonic.lda, .ldx, .ldy, .adc, .cmp]) (ea : Addr) (v : Byte) {s : State}
    (ha : s.a = 0) (hc : checkFlag .c s.p = false) : checkFlag .z (act m ea v s).p = (v == 0#8) := by
  cases m <;> simp at hm
  case lda => simp [act, loadA_eq]
  case ldx => simp [act, loadX_eq]
  case ldy => simp [act, loadY_eq]
  case adc => simp [act, addCarry_eq, adc8_sum, ha, hc]
  case cmp => simp [act, compare_eq, cmp8, ha]

theorem wf_probe (mode : Mode) (o : Operand) : (probe mode o).wf = true := by
  have hd := (byteOf o).isLt
  have ha := (wordOf o).isLt
  unfold probe
  split <;> simp [Memory.wf, Memory.blank, pointerProbe] <;> omega

/-- A load, an add or a compare of A through the probe answers with Z as the byte found. -/
theorem not_ignores_of_indexed_read {r : DataReg} {i : Instr} (h : i.mode ∈ r.modes)
    (hm : i.mnemonic ∈ [Mnemonic.lda, .ldx, .ldy, .adc, .cmp]) : ¬Ignores r.set i := by
  obtain ⟨h0, h2⟩ := probe_tells h
  have ha : ∀ w n, ((r.set (probeState i) w).advance n).a = 0 := by
    cases r with
    | a => exact absurd h List.not_mem_nil
    | x | y => exact fun _ _ => rfl
  have hz : ∀ w, checkFlag .z (after i (r.set (probeState i) w)).p
      = ((probeState i).byteAt (modeAddr i.mode i.operand (r.set (probeState i) w)) == 0#8) := fun w => by
    rw [after, z_act_of_byte hm _ _ (ha w _) (by simp [checkFlag_c_reset]), modeByte_of_indexed h,
      State.byteAt, DataReg.set_mem, State.byteAt]
  refine not_ignores_of_observed (fun s => checkFlag .z s.p) (fun s w => by rw [DataReg.set_p]) (s := probeState i)
    (v := 0) (w := 2) ?_
  rw [hz, hz, h0, h2]
  decide

/-- At the probe state a store of another register stores 0. -/
theorem mem_after_of_store {r : DataReg} {i : Instr} (hm : i.mnemonic ∈ [Mnemonic.sta, .stx, .sty])
    (hr : i.mnemonic ∉ r.readers) (w : Byte) :
    (after i (r.set (probeState i) w)).mem
      = (probe i.mode i.operand).writeByte (modeAddr i.mode i.operand (r.set (probeState i) w)) 0 := by
  unfold after
  generalize i.mnemonic = m at hm hr ⊢
  cases r <;> cases m <;> simp [DataReg.readers] at hm hr <;> rfl

/-- A store of 0 through the probe clears the marked byte at index 0 and leaves it at index 2. -/
theorem not_ignores_of_indexed_store {r : DataReg} {i : Instr} (h : i.mode ∈ r.modes)
    (hm : i.mnemonic ∈ [Mnemonic.sta, .stx, .sty]) (hr : i.mnemonic ∉ r.readers) : ¬Ignores r.set i := by
  obtain ⟨h0, h2⟩ := probe_tells h
  refine not_ignores_of_observed State.mem (DataReg.set_mem r) (s := probeState i) (v := 0) (w := 2) fun heq => ?_
  simp only [mem_after_of_store hm hr] at heq
  generalize modeAddr i.mode i.operand (r.set (probeState i) 0) = ea0 at h0 heq
  generalize modeAddr i.mode i.operand (r.set (probeState i) 2) = ea2 at h2 heq
  have hread := congrArg (fun m => Memory.readByte m ea0) heq
  have hne : ea0 ≠ ea2 := fun he => absurd (h0.symm.trans (he ▸ h2)) (by decide)
  simp only [readByte_writeByte (wf_probe _ _), if_pos, if_neg hne] at hread
  exact absurd (hread.trans h0) (by decide)

theorem not_ignores_of_mode {r : DataReg} {i : Instr} (h : i.mode ∈ r.modes) : ¬Ignores r.set i := by
  rcases indexed_mnemonic h with hm | ⟨hm, hr⟩
  · exact not_ignores_of_indexed_read h hm
  · exact not_ignores_of_indexed_store h hm hr

/-- Only the mnemonics and modes of R10 to R12 read the register, and each of them does. -/
theorem not_ignores_iff_read (r : DataReg) (i : Instr) :
    ¬Ignores r.set i ↔ i.mnemonic ∈ r.readers ∨ i.mode ∈ r.modes := by
  constructor
  · intro h
    by_contra hread
    obtain ⟨hr, hmode⟩ := not_or.mp hread
    exact h (ignores_of_not_read hr hmode)
  · rintro (hr | hmode)
    · exact not_ignores_of_reader hr
    · exact not_ignores_of_mode hmode

/-! ### The settled statements -/

/-- Settles O27: A is written and read by the handlers of R10, and no mode reads it. -/
theorem accumulatorUse : Obligations.AccumulatorUse :=
  ⟨writes_iff_writer .a, fun i => (not_ignores_iff_read .a i).trans (or_iff_left List.not_mem_nil),
    fun _ _ => ⟨⟨rfl, rfl, rfl, rfl, rfl⟩, rfl, rfl, rfl⟩⟩

/-- Settles O28: X is written and read by the handlers and the modes of R11. -/
theorem indexXUse : Obligations.IndexXUse :=
  ⟨writes_iff_writer .x, not_ignores_iff_read .x, fun _ _ => ⟨⟨rfl, rfl, rfl, rfl, rfl⟩, rfl, rfl, rfl⟩⟩

/-- Settles O29: Y is written and read by the handlers and the modes of R12. -/
theorem indexYUse : Obligations.IndexYUse :=
  ⟨writes_iff_writer .y, not_ignores_iff_read .y, fun _ _ => ⟨⟨rfl, rfl, rfl, rfl, rfl⟩, rfl, rfl, rfl⟩⟩

end Sys2Proof.Proofs
end

section
/-! SUPPORT. What memory reads as after a run of writes (20_memory.md R40, R43, R45, R48, R50): inside a load the bytes
loaded, outside it the old bytes, and at a cell that no write names the byte it held. -/

namespace Sys2Proof.Proofs

open Sys2Proof.Machine

theorem read_writeBytes_outside {m : Memory} (h : m.wf = true) {k j : Nat} {bytes : List Byte}
    (hk : k + bytes.length ≤ 65536) (hj : j < k ∨ k + bytes.length ≤ j) :
    Memory.read (m.writeBytes k bytes) j = Memory.read m j := by
  induction bytes generalizing m k with
  | nil => rfl
  | cons b rest ih =>
    simp only [List.length_cons] at hk hj
    rw [Memory.writeBytes, ih (Memory.wf_write h (by omega) b) (by omega) (by omega), Memory.read_write h,
      if_neg (by omega)]

theorem read_writeBytes_inside {m : Memory} (h : m.wf = true) {k : Nat} {bytes : List Byte}
    (hk : k + bytes.length ≤ 65536) {i : Nat} (hi : i < bytes.length) :
    Memory.read (m.writeBytes k bytes) (k + i) = bytes[i] := by
  induction bytes generalizing m k i with
  | nil => exact absurd hi (Nat.not_lt_zero i)
  | cons b rest ih =>
    simp only [List.length_cons] at hk hi
    have hw : (Memory.write m k b).wf = true := Memory.wf_write h (by omega) b
    cases i with
    | zero =>
      rw [Memory.writeBytes, read_writeBytes_outside hw (by omega) (.inl (by omega)), Memory.read_write h,
        if_pos (Nat.add_zero k), List.getElem_cons_zero]
    | succ i =>
      rw [Memory.writeBytes, show k + (i + 1) = k + 1 + i by omega, ih hw (by omega) (by omega),
        List.getElem_cons_succ]

/-- An address of a load does not wrap: the load ends at or below the top of memory (R48). -/
theorem toNat_load_address {address : Addr} {i n : Nat} (hn : address.toNat + n ≤ 65536) (hi : i < n) :
    (address + BitVec.ofNat 16 i).toNat = address.toNat + i := by
  rw [BitVec.toNat_add, BitVec.toNat_ofNat]
  omega

/-- A load that answers a next state stays inside memory, and its state is the old one with the bytes in memory. -/
theorem load_eq_next {address : Addr} {bytes : List Byte} {s t : State} (h : load address bytes s = .next t) :
    address.toNat + bytes.length ≤ 65536 ∧ t = { s with mem := s.mem.writeBytes address.toNat bytes } := by
  rcases load_cases address bytes s with ⟨hle, hnext⟩ | ⟨_, hfault⟩
  · exact ⟨hle, Host.Outcome.next.inj (h.symm.trans hnext)⟩
  · exact nomatch h.symm.trans hfault

theorem byteAt_load {s t : State} (hwf : s.mem.wf = true) {address : Addr} {bytes : List Byte}
    (h : load address bytes s = .next t) {i : Nat} (hi : i < bytes.length) :
    t.byteAt (address + BitVec.ofNat 16 i) = bytes[i] := by
  obtain ⟨hle, rfl⟩ := load_eq_next h
  rw [State.byteAt, Memory.readByte, toNat_load_address hle hi, read_writeBytes_inside hwf hle hi]

/-- A cell keeps its byte through any writes to other cells. -/
theorem readByte_foldl_writeByte {m : Memory} (h : m.wf = true) {k : Addr} {writes : List (Addr × Byte)}
    (hne : ∀ w ∈ writes, w.1 ≠ k) :
    (writes.foldl (fun m w => m.writeByte w.1 w.2) m).readByte k = m.readByte k := by
  induction writes generalizing m with
  | nil => rfl
  | cons w rest ih =>
    obtain ⟨hw, hrest⟩ := List.forall_mem_cons.mp hne
    rw [List.foldl_cons, ih (Memory.wf_writeByte h _ _) hrest, readByte_writeByte h, if_neg hw.symm]

/-! ### The settled statements -/

/-- Settles O15: the law of a read after a write, at the 16-bit addresses. -/
theorem readAfterWrite : Obligations.ReadAfterWrite := fun _ addr k v h => readByte_writeByte h addr k v

/-- Settles O18: the load puts the byte there, and writes to other cells keep it. -/
theorem loadRoundTrip : Obligations.LoadRoundTrip := by
  intro s t address bytes hwf hload i hi
  have hbyte := byteAt_load hwf hload hi
  exact ⟨hbyte, fun _ hne => (readByte_foldl_writeByte (wf_load hwf hload) hne).trans hbyte⟩

end Sys2Proof.Proofs
end

section
/-! SUPPORT. What the decoder answers, part by part (30_encoding.md R71 to R74, R79): a decoded instruction comes from the
row of its opcode byte, from as many operand bytes as the row's mode takes, and from the mnemonic and mode of the row. -/

namespace Sys2Proof.Proofs

open Sys2Proof.Machine

/-- An operand takes as many bytes as its mode has. -/
theorem takeOperand_length {n : Nat} {bytes rest : List Byte} {low high : Byte}
    (h : takeOperand n bytes = some (low, high, rest)) : bytes.length = n + rest.length := by
  unfold takeOperand at h
  split at h <;> cases h
  · exact (Nat.zero_add _).symm
  · exact Nat.add_comm _ 1
  · exact Nat.add_comm _ 2

/-- An assembled instruction is one of the mnemonic and mode it is assembled from, whatever the operand bytes. -/
theorem assemble_some {m : Mnemonic} {mode : Mode} {low high : Byte} {i : Instr}
    (h : assemble m mode low high = some i) : i.mnemonic = m ∧ i.mode = mode := by
  cases m <;> cases mode <;> cases h <;> exact ⟨rfl, rfl⟩

/-- Bytes that decode are an opcode byte with a row, and after it the operand bytes from which the row's instruction is
assembled. -/
theorem decode_ok {bytes rest : List Byte} {i : Instr} (h : decode bytes = .ok (i, rest)) :
    ∃ op tail row low high, bytes = op :: tail ∧ decodeOpcode op = some row
      ∧ takeOperand row.mode.size tail = some (low, high, rest)
      ∧ assemble row.mnemonic row.mode low high = some i := by
  cases bytes with
  | nil => cases h
  | cons op tail =>
    simp only [decode] at h
    cases hrow : decodeOpcode op with
    | none => simp [hrow] at h
    | some row =>
      simp only [hrow] at h
      split at h
      · cases h
      · next low high after htake =>
        split at h
        · cases h
        · next j hasm =>
          cases h
          exact ⟨op, tail, row, low, high, rfl, hrow, htake, hasm⟩

/-- A byte with no row is rejected before any operand byte is looked at (R79). -/
theorem decode_of_no_row {op : Byte} (h : decodeOpcode op = none) (tail : List Byte) :
    decode (op :: tail) = .error (.unsupportedOpcode op) := by
  simp only [decode, h]

theorem step_of_decode_error {s : State} {e : DecodeError} (h : decode (fetchBytes s) = .error e) :
    step s = .fault (.unsupportedOpcode s.pc (s.byteAt s.pc)) := by
  rcases step_cases s with ⟨i, rest, hok, _⟩ | ⟨_, _, hfault⟩
  · exact nomatch h.symm.trans hok
  · exact hfault

/-! ### The settled statement -/

/-- Settles O5: the row of the opcode byte fixes the operand bytes taken, and without a row the fetch does not decode. -/
theorem lengthFromOpcodeByte : Obligations.LengthFromOpcodeByte := by
  constructor
  · intro bytes i rest h
    obtain ⟨op, tail, row, low, high, rfl, hrow, htake, hasm⟩ := decode_ok h
    obtain ⟨hmnemonic, hmode⟩ := assemble_some hasm
    have hlen : (op :: tail).length = 1 + row.mode.size + rest.length := by
      rw [List.length_cons, takeOperand_length htake]
      omega
    exact ⟨op, tail, row, rfl, hrow, hmnemonic, hmode, hlen⟩
  · exact fun s h => step_of_decode_error (decode_of_no_row h _)

end Sys2Proof.Proofs
end

section
/-! SUPPORT. The address arithmetic of 41_addressing_modes.md as numbers: the 16-bit indexed address with its page crossing
(R105, R114) and the zero-page index that wraps within the page (R109). -/

namespace Sys2Proof.Proofs

open Sys2Proof.Machine Sys2Proof.Safety

/-- Indexing wraps at the top of memory. -/
theorem toNat_indexed_ea (base : Addr) (index : Byte) :
    (indexed base index).ea.toNat = (base.toNat + index.toNat) % 65536 := by
  simp [indexed]

/-- A page is crossed exactly where the page of the address is not the page of the base. -/
theorem indexed_crossed_eq_decide (base : Addr) (index : Byte) :
    (indexed base index).crossed = decide ((indexed base index).ea.toNat / 256 ≠ base.toNat / 256) := by
  rw [Bool.eq_iff_iff, decide_eq_true_iff, ← toNat_hiByte, ← toNat_hiByte, ne_eq, BitVec.toNat_inj]
  exact bne_iff_ne

/-- The zero-page adder drops its carry before the address is widened. -/
theorem toNat_zext16_add (d index : Byte) : (zext16 (d + index)).toNat = (d.toNat + index.toNat) % 256 := by
  rw [toNat_zext16]
  exact BitVec.toNat_add ..

/-! ### The operand word where a read at the top of memory wraps -/

/-- Every mode with an operand word applies its own address function to that word (R104 to R107). -/
theorem wordRead_map_of_wrap {c : Config} (hwrap : c.wordWrapAtTop = .wrap) (m : Memory) (addr : Addr)
    (g : Addr → Resolved) : (wordRead c m addr).map g = .ok (g (m.readWord addr)) := by
  have hread : wordRead c m addr = .ok (m.readWord addr) := by simp [wordRead, hwrap]
  rw [hread]
  rfl

/-! ### The settled statement -/

/-- Settles O46: the absolute modes take the operand word, the indexed ones through the 16-bit adder; the zero-page modes
take the operand byte, the indexed ones through the 8-bit adder. -/
theorem resolverPlainModes : Obligations.ResolverPlainModes := by
  intro c pc0 op s hwrap
  have word := wordRead_map_of_wrap hwrap s.mem s.pc
  have sizes : Mode.immediate.size = 1 ∧ Mode.absolute.size = 2 ∧ Mode.absoluteX.size = 2 ∧ Mode.absoluteY.size = 2
      ∧ Mode.zeroPage.size = 1 ∧ Mode.zeroPageX.size = 1 ∧ Mode.zeroPageY.size = 1 := by decide
  refine ⟨?immediate, ?absolute, ?absoluteX, ?absoluteY, ?zeroPage, ?zeroPageX, ?zeroPageY, sizes⟩
  case immediate => rfl
  case absolute => exact word eaAbsolute
  case absoluteX => exact ⟨_, word (eaAbsoluteX · s), toNat_indexed_ea _ _, indexed_crossed_eq_decide _ _⟩
  case absoluteY => exact ⟨_, word (eaAbsoluteY · s), toNat_indexed_ea _ _, indexed_crossed_eq_decide _ _⟩
  case zeroPage => exact ⟨_, rfl, toNat_zext16 _, rfl⟩
  case zeroPageX => exact ⟨_, rfl, toNat_zext16_add _ _, rfl⟩
  case zeroPageY => exact ⟨_, rfl, toNat_zext16_add _ _, rfl⟩

end Sys2Proof.Proofs
end

section
/-! SUPPORT. The `alu_8bit` block (42_alu.md R120, R122, R123) in bits and numbers: the status register after `setNZ`, and
the 8-bit wrap of the difference. -/

namespace Sys2Proof.Proofs

open Sys2Proof.Machine Sys2Proof.Safety

/-- Bit by bit, `setNZ(v)` is two flag writes, at bits 1 and 7. -/
theorem getLsbD_setNZ (v p : Byte) {k : Nat} (hk : k < 8) :
    (setNZ v p).getLsbD k = if k = 7 then v.msb else if k = 1 then v == 0#8 else p.getLsbD k := by
  rw [setNZ, getLsbD_assignFlag .n _ _ hk, getLsbD_assignFlag .z _ _ hk]
  rfl

theorem getLsbD_setNZ_z (v p : Byte) : (setNZ v p).getLsbD 1 = decide (v = 0) :=
  getLsbD_setNZ v p (by decide)

theorem getLsbD_setNZ_n (v p : Byte) : (setNZ v p).getLsbD 7 = decide (128 ≤ v.toNat) :=
  (getLsbD_setNZ v p (by decide)).trans v.msb_eq_decide

theorem getLsbD_setNZ_of_ne (v p : Byte) {k : Nat} (hk : k < 8) (hz : k ≠ 1) (hn : k ≠ 7) :
    (setNZ v p).getLsbD k = p.getLsbD k := by
  rw [getLsbD_setNZ v p hk, if_neg hn, if_neg hz]

theorem onlyNZ_setNZ (v p : Byte) : OnlyNZ p (setNZ v p) v := by
  have kept {k : Nat} (hk : k < 8) (hz : k ≠ 1) (hn : k ≠ 7) := getLsbD_setNZ_of_ne v p hk hz hn
  refine ⟨?c, getLsbD_setNZ_z v p, ?v, getLsbD_setNZ_n v p, fun k hlo hhi => ?idbu⟩
  case c | v => exact kept (by decide) (by decide) (by decide)
  case idbu => exact kept (by omega) (by omega) (by omega)

/-- A byte difference wraps as the integer difference mod 256. -/
theorem toNat_byte_sub (a b : Byte) : ((a - b).toNat : Int) = ((a.toNat : Int) - b.toNat) % 256 := by
  have hb : b.toNat < 256 := b.isLt
  rw [BitVec.toNat_sub]
  omega

/-! ### The settled statements -/

/-- Settles O22: Z wants the byte 0x00 and N a byte from 0x80 on, so they exclude each other and 0x01 to 0x7F is neither. -/
theorem setNZBits : Obligations.SetNZBits := by
  intro v p
  refine ⟨onlyNZ_setNZ v p, ?notBoth, fun hlo hhi => ?neither⟩ <;> rw [getLsbD_setNZ_z, getLsbD_setNZ_n]
  case notBoth =>
    rintro ⟨hz, hn⟩
    have hzero : v = 0 := of_decide_eq_true hz
    subst hzero
    exact absurd hn (by decide)
  case neither =>
    have hpos : v ≠ 0 := by rintro rfl; exact absurd hlo (by decide)
    exact ⟨decide_eq_false hpos, decide_eq_false (by omega)⟩

/-- Settles O25: the difference wraps mod 256, and the carry is the unsigned comparison. -/
theorem compareDifferenceAndCarry : Obligations.CompareDifferenceAndCarry :=
  fun r m => ⟨toNat_byte_sub r m, decide_eq_true_iff⟩

/-- Settles O26: both directions wrap mod 256, at 0xFF and at 0x00. -/
theorem incDecWrapAt8Bits : Obligations.IncDecWrapAt8Bits :=
  fun v => ⟨BitVec.toNat_add v 1#8, toNat_byte_sub v 1#8, by decide, by decide⟩

end Sys2Proof.Proofs
end

section
/-! SUPPORT. Which fault each host operation can end in (60_exceptions.md R170, R172, R175; D15, log 15), and the state the
host finds after it (R173; D16, log 16). -/

namespace Sys2Proof.Proofs

open Sys2Proof.Machine

/-- A step faults in no way but R170's: the unsupported opcode at its own PC. -/
theorem fault_of_step {s : State} {f : Fault} (h : step s = .fault f) :
    f = .unsupportedOpcode s.pc (s.byteAt s.pc) := by
  rcases step_cases s with ⟨i, _, _, hexec⟩ | ⟨_, _, hfault⟩
  · obtain ⟨t, hnext⟩ := exec_next i s
    exact nomatch h.symm.trans (hexec.trans hnext)
  · exact Host.Outcome.fault.inj (h.symm.trans hfault)

/-- A load faults in no way but R172's: the range that does not fit. -/
theorem fault_of_load {address : Addr} {bytes : List Byte} {s : State} {f : Fault}
    (h : load address bytes s = .fault f) : f = .loadOutOfRange address bytes.length := by
  rcases load_cases address bytes s with ⟨_, hnext⟩ | ⟨_, hfault⟩
  · exact nomatch h.symm.trans hnext
  · exact Host.Outcome.fault.inj (h.symm.trans hfault)

/-- Setting PC and RUN adds no fault to the load's own (70_reset_and_hazards.md R203). -/
theorem load_fault_of_loadExecutable {address : Addr} {bytes : List Byte} {s : State} {f : Fault}
    (h : loadExecutable address bytes s = .fault f) : load address bytes s = .fault f := by
  unfold loadExecutable at h
  split at h
  · cases h
  · next hload =>
    cases h
    exact hload
  · cases h

/-- The host operations that can fault, and the one fault of each. -/
theorem perform_fault_cases {op : HostOp} {s : State} {f : Fault} (h : op.perform s = .fault f) :
    (op = .step ∧ f = .unsupportedOpcode s.pc (s.byteAt s.pc))
      ∨ ∃ address bytes, (op = .load address bytes ∨ op = .loadExecutable address bytes)
        ∧ f = .loadOutOfRange address bytes.length := by
  cases op with
  | step => exact .inl ⟨rfl, fault_of_step h⟩
  | load address bytes => exact .inr ⟨address, bytes, .inl rfl, fault_of_load h⟩
  | loadExecutable address bytes =>
    exact .inr ⟨address, bytes, .inr rfl, fault_of_load (load_fault_of_loadExecutable h)⟩
  | reset | writeReg | writePc | setFlag | clearFlag => cases h

/-- A recorded unsupported opcode is the byte at the PC of the state the operation started from. -/
theorem unsupportedOpcode_at_pc {op : HostOp} {s : State} {pc : Addr} {b : Byte}
    (h : op.perform s = .fault (.unsupportedOpcode pc b)) : pc = s.pc ∧ b = s.byteAt pc := by
  rcases perform_fault_cases h with ⟨_, hf⟩ | ⟨_, _, _, hf⟩
  · cases hf
    exact ⟨rfl, rfl⟩
  · cases hf

theorem stateAfter_of_fault {r : Result} {f : Fault} (h : r = .fault f) (s : State) : stateAfter s r = s := by
  rw [h, stateAfter]

/-! ### The settled statement -/

/-- Settles O54: the fault discards the attempt, so the operation meets the same state again; only a step names a PC. -/
theorem faultLeavesState : Obligations.FaultLeavesState := by
  intro op s f h
  have hstate : stateAfter s (op.perform s) = s := stateAfter_of_fault h s
  rw [hstate]
  exact ⟨rfl, fun _ _ hf => unsupportedOpcode_at_pc (hf ▸ h), h⟩

end Sys2Proof.Proofs
end

section
/-! SUPPORT. Encoding and decoding undo each other (30_encoding.md R70 to R74, R77, R80): the operand bytes of an
instruction are the ones the decoder takes, and the assembler gives the instruction back from them. -/

namespace Sys2Proof.Proofs

open Sys2Proof.Machine Sys2Proof.Safety

/-! ### The operand bytes -/

/-- The low operand byte, 0 where there is none. -/
def lowOf : Operand → Byte
  | .none => 0
  | .byte d => d
  | .word a => loByte a

/-- The high operand byte, 0 where there is none. -/
def highOf : Operand → Byte
  | .none | .byte _ => 0
  | .word a => hiByte a

/-- An instruction carries as many operand bytes as its mode has (R72). -/
theorem operand_bytes_length (i : Instr) : i.operand.bytes.length = i.mode.size := by
  cases i <;> rfl

theorem takeOperand_bytes (o : Operand) (rest : List Byte) :
    takeOperand o.bytes.length (o.bytes ++ rest) = some (lowOf o, highOf o, rest) := by
  cases o <;> rfl

/-- What the decoder takes as the operand are the first bytes after the opcode. -/
theorem takeOperand_some {n : Nat} {bytes rest : List Byte} {low high : Byte}
    (h : takeOperand n bytes = some (low, high, rest)) : bytes = [low, high].take n ++ rest := by
  unfold takeOperand at h
  split at h <;> cases h <;> rfl

/-- No mode takes more than the two bytes that a fetch reads after the opcode. -/
theorem takeOperand_pair (mode : Mode) (d e : Byte) :
    ∃ low high rest, takeOperand mode.size [d, e] = some (low, high, rest) := by
  cases mode <;> exact ⟨_, _, _, rfl⟩

/-! ### The assembler -/

theorem assemble_parts (i : Instr) : assemble i.mnemonic i.mode (lowOf i.operand) (highOf i.operand) = some i := by
  cases i <;> simp [Instr.mnemonic, Instr.mode, Instr.operand, Instr.parts, assemble, lowOf, highOf]

theorem assemble_isSome {m : Mnemonic} {mode : Mode} (h : mode ∈ m.modes) (low high : Byte) :
    ∃ i, assemble m mode low high = some i := by
  cases m <;> cases mode <;> simp [Mnemonic.modes] at h <;> exact ⟨_, rfl⟩

theorem operand_bytes_of_assemble {m : Mnemonic} {mode : Mode} {low high : Byte} {i : Instr}
    (h : assemble m mode low high = some i) : i.operand.bytes = [low, high].take mode.size := by
  cases m <;> cases mode <;> cases h <;>
    simp [Instr.operand, Instr.parts, Operand.bytes, Mode.size]

/-! ### The opcode byte -/

theorem decodeOpcode_opcodeOf (i : Instr) :
    ∃ row, decodeOpcode (opcodeOf i) = some row ∧ row.mnemonic = i.mnemonic ∧ row.mode = i.mode := by
  cases i <;> exact ⟨_, rfl, rfl, rfl⟩

theorem row_mode_mem_modes {row : OpcodeRow} (h : row ∈ opcodeTable) : row.mode ∈ row.mnemonic.modes := by
  have all : ∀ r ∈ opcodeTable, r.mode ∈ r.mnemonic.modes := by decide
  exact all row h

/-- No two rows have the same mnemonic and mode (R77). -/
theorem row_eq_of_parts {row row' : OpcodeRow} (h : row ∈ opcodeTable) (h' : row' ∈ opcodeTable)
    (hm : row.mnemonic = row'.mnemonic) (hmode : row.mode = row'.mode) : row = row' := by
  have nodup : (opcodeTable.map fun r => (r.mnemonic, r.mode)).Nodup := by decide
  exact List.inj_on_of_nodup_map nodup h h' (Prod.ext hm hmode)

theorem opcodeOf_eq_of_row {op : Byte} {row : OpcodeRow} {i : Instr} (h : decodeOpcode op = some row)
    (hm : i.mnemonic = row.mnemonic) (hmode : i.mode = row.mode) : opcodeOf i = op := by
  obtain ⟨hrow, hbyte⟩ := decodeOpcode_some h
  obtain ⟨row', h', hm', hmode'⟩ := decodeOpcode_opcodeOf i
  obtain ⟨hrow', hbyte'⟩ := decodeOpcode_some h'
  rw [← hbyte, ← hbyte', row_eq_of_parts hrow' hrow (hm'.trans hm) (hmode'.trans hmode)]

/-! ### The decoder -/

theorem decode_encode (i : Instr) (rest : List Byte) : decode (encode i ++ rest) = .ok (i, rest) := by
  obtain ⟨row, hrow, hm, hmode⟩ := decodeOpcode_opcodeOf i
  have htake := takeOperand_bytes i.operand rest
  rw [operand_bytes_length] at htake
  simp only [encode, List.cons_append, decode, hrow, hm, hmode, htake, assemble_parts]

/-- Every instruction is well-formed: its pair stands in R77 and its operand fits (R80). -/
theorem instr_wf (i : Instr) : i.wf = true := by
  have hpair : i.raw.pairExists = true := List.contains_iff_mem.mpr (mode_mem_modes i)
  have hfits : i.operand.value < 256 ^ i.operand.bytes.length := by
    cases i.operand with
    | none => decide
    | byte d => simpa [Operand.value, Operand.bytes] using d.isLt
    | word a => simpa [Operand.value, Operand.bytes] using a.isLt
  rw [operand_bytes_length] at hfits
  rw [Instr.wf, RawInstr.wf, hpair, Bool.true_and]
  exact decide_eq_true hfits

/-- A byte with a row decodes with whatever two bytes stand after it, to the row's instruction of them. -/
theorem decode_of_row {op : Byte} {row : OpcodeRow} (h : decodeOpcode op = some row) (d e : Byte) :
    ∃ i rest, decode [op, d, e] = .ok (i, rest) ∧ i.mnemonic = row.mnemonic ∧ i.mode = row.mode
      ∧ i.operand.bytes ++ rest = [d, e] := by
  obtain ⟨low, high, rest, htake⟩ := takeOperand_pair row.mode d e
  obtain ⟨i, hasm⟩ := assemble_isSome (row_mode_mem_modes (decodeOpcode_some h).1) low high
  obtain ⟨hm, hmode⟩ := assemble_some hasm
  refine ⟨i, rest, ?_, hm, hmode, ?_⟩
  · simp only [decode, h, htake, hasm]
  · rw [operand_bytes_of_assemble hasm, ← takeOperand_some htake]

/-! ### The settled statements -/

/-- Settles O2: the row of the opcode byte, the operand bytes, and the assembler each give their part of the instruction
back. -/
theorem decodeOfEncode : Obligations.DecodeOfEncode :=
  fun i rest _ => decode_encode i rest

/-- Settles O3: the row is the only one of its mnemonic and mode, and the operand bytes are the ones taken. -/
theorem encodeOfDecode : Obligations.EncodeOfDecode := by
  intro bytes i rest h
  obtain ⟨op, tail, row, low, high, rfl, hrow, htake, hasm⟩ := decode_ok h
  obtain ⟨hm, hmode⟩ := assemble_some hasm
  refine ⟨?_, instr_wf i⟩
  rw [encode, opcodeOf_eq_of_row hrow hm hmode, operand_bytes_of_assemble hasm, takeOperand_some htake]
  rfl

/-- Settles O6: the row's mode takes no more than the two bytes, and its pair is an instruction whatever they are. -/
theorem operandBytesAlwaysAccepted : Obligations.OperandBytesAlwaysAccepted := by
  intro op d e row h
  obtain ⟨i, rest, hdecode, hm, hmode, _⟩ := decode_of_row h d e
  exact ⟨i, rest, hdecode, hm, hmode⟩

/-- Settles O4: each word is the encoding of what it stands for, and 0xEA has no row. -/
theorem writtenBytesDecode : Obligations.WrittenBytesDecode := by
  have word (i : Instr) : decode (encode i) = .ok (i, []) := by simpa using decode_encode i []
  exact ⟨word (.ldaIndY 0x04), word (.ldxZpY 0x10), word (.ldyAbsX 0x12FF), word (.staAbs 0x0020), word (.adcImm 0xF0),
    word (.cmpAbsX 0x12F0), word .inx, word (.jmp 0x1234), word (.bne 0xFD), word .hlt, decode_of_no_row rfl []⟩

end Sys2Proof.Proofs
end

section
/-! SUPPORT. Which bytes a step runs and which it faults at (30_encoding.md R77, R79; 40_fetch_decode_execute.md
R90). -/

namespace Sys2Proof.Proofs

open Sys2Proof.Machine Sys2Proof.Safety

theorem step_of_decode {s : State} {i : Instr} {rest : List Byte} (h : decode (fetchBytes s) = .ok (i, rest)) :
    step s = exec i s := by
  simp only [step, h]

/-- A program of at most three bytes at PC is what a step fetches first. -/
theorem fetchBytes_of_programAt {s : State} {bytes : List Byte} (h : ProgramAt s bytes) (hlen : bytes.length ≤ 3) :
    fetchBytes s = bytes ++ (fetchBytes s).drop bytes.length := by
  have hfetched : ∀ (k : Nat) (hk : k < (fetchBytes s).length), (fetchBytes s)[k] = s.byteAt (s.pc + BitVec.ofNat 16 k)
    | 0, _ => by simp [fetchBytes]
    | 1, _ | 2, _ => rfl
  have htake : (fetchBytes s).take bytes.length = bytes := by
    refine List.ext_getElem (List.length_take_of_le hlen) fun k hk hk' => ?_
    rw [List.getElem_take, hfetched, h k hk']
  exact (List.take_append_drop bytes.length (fetchBytes s)).symm.trans (by rw [htake])

theorem encode_length (i : Instr) : (encode i).length = i.length := by
  rw [encode, List.length_cons, operand_bytes_length, Instr.length, Nat.add_comm]

theorem mode_size_le (mode : Mode) : mode.size ≤ 2 := by
  cases mode <;> decide

theorem decode_of_programAt {s : State} {i : Instr} (h : ProgramAt s (encode i)) :
    ∃ rest, decode (fetchBytes s) = .ok (i, rest) := by
  have hlen : (encode i).length ≤ 3 := by
    rw [encode_length, Instr.length]
    exact Nat.add_le_add_left (mode_size_le i.mode) 1
  exact ⟨_, (congrArg decode (fetchBytes_of_programAt h hlen)).trans (decode_encode i _)⟩

theorem step_of_programAt {s : State} {i : Instr} (h : ProgramAt s (encode i)) : step s = exec i s := by
  obtain ⟨rest, hdecode⟩ := decode_of_programAt h
  exact step_of_decode hdecode

/-- The rows of R76 are those of the bytes listed in R77. -/
theorem mem_tableOpcodes_iff (op : Byte) : op ∈ Config.tableOpcodes ↔ ∃ row, decodeOpcode op = some row := by
  have hperm : (opcodeTable.map OpcodeRow.byte).Perm Config.tableOpcodes := by decide
  rw [← hperm.mem_iff, ← Option.isSome_iff_exists, decodeOpcode, List.find?_isSome]
  simp

/-- Settles O1: the decoder's answer selects the meaning, and an encoding at PC decodes to its instruction. -/
theorem stepRunsDecodedInstruction : Obligations.StepRunsDecodedInstruction :=
  fun _ => ⟨fun _ _ h => step_of_decode h, fun _ h => step_of_programAt h⟩

/-- Settles O7: a byte of the table has a row and its instruction completes; any other has none, and the fetch does not
decode. -/
theorem unsupportedExactlyOutsideTable : Obligations.UnsupportedExactlyOutsideTable := by
  refine ⟨fun s => ⟨fun h => ?inside, fun h => ?outside⟩, by decide, rfl, rfl⟩
  case inside =>
    obtain ⟨row, hrow⟩ := (mem_tableOpcodes_iff _).mp h
    obtain ⟨i, rest, hdecode, _⟩ := decode_of_row hrow (s.byteAt (s.pc + 1#16)) (s.byteAt (s.pc + 2#16))
    rw [step_of_decode hdecode]
    exact exec_next i s
  case outside =>
    have hrow : decodeOpcode (s.byteAt s.pc) = none := by
      rw [Option.eq_none_iff_forall_ne_some]
      exact fun row hrow => h ((mem_tableOpcodes_iff _).mpr ⟨row, hrow⟩)
    exact step_of_decode_error (decode_of_no_row hrow _)

end Sys2Proof.Proofs
end

section
/-! SUPPORT. What the handlers assign in P, said once as a list of flag writes (10_state.md R18, R19), and the pieces of
state they carry along: SP, RUN, the stored status bits and the canonical form of memory. -/

namespace Sys2Proof.Proofs

open Sys2Proof.Machine Sys2Proof.Safety

/-! ### A list of flag writes -/

/-- The flag writes of a list, the first one first. -/
def assignAll (writes : List (Flag × Bool)) (p : Byte) : Byte := writes.foldl (fun p w => assignFlag w.1 w.2 p) p

@[simp] theorem assignAll_cons (w : Flag × Bool) (writes : List (Flag × Bool)) (p : Byte) :
    assignAll (w :: writes) p = assignAll writes (assignFlag w.1 w.2 p) := rfl

theorem flagBit_injective : Function.Injective flagBit := by
  intro f g
  cases f <;> cases g <;> decide

/-- The last write of a flag counts. -/
theorem assignFlag_assignFlag_same (f : Flag) (b c : Bool) (p : Byte) :
    assignFlag f b (assignFlag f c p) = assignFlag f b p := by
  refine BitVec.eq_of_getLsbD_eq fun k hk => ?_
  simp only [getLsbD_assignFlag _ _ _ hk]
  split <;> rfl

theorem assignFlag_comm {f g : Flag} (h : f ≠ g) (b c : Bool) (p : Byte) :
    assignFlag f b (assignFlag g c p) = assignFlag g c (assignFlag f b p) := by
  refine BitVec.eq_of_getLsbD_eq fun k hk => ?_
  simp only [getLsbD_assignFlag _ _ _ hk]
  by_cases hf : k = flagBit f
  · have hg : k ≠ flagBit g := fun hg => h (flagBit_injective (hf.symm.trans hg))
    rw [if_pos hf, if_neg hg, if_pos hf]
  · rw [if_neg hf, if_neg hf]

/-- A flag that the list assigns forgets what was written to it before. -/
theorem assignAll_assignFlag_of_mem {f : Flag} {writes : List (Flag × Bool)} (h : f ∈ writes.map Prod.fst) (b : Bool)
    (p : Byte) : assignAll writes (assignFlag f b p) = assignAll writes p := by
  induction writes generalizing p with
  | nil => exact absurd h List.not_mem_nil
  | cons w rest ih =>
    obtain ⟨g, c⟩ := w
    by_cases hfg : f = g
    · subst hfg
      simp only [assignAll_cons, assignFlag_assignFlag_same]
    · have hrest : f ∈ rest.map Prod.fst := (List.mem_cons.mp h).resolve_left hfg
      simp only [assignAll_cons, assignFlag_comm (Ne.symm hfg), ih hrest]

/-- A flag that the list does not assign is carried along. -/
theorem assignAll_assignFlag_of_not_mem {f : Flag} {writes : List (Flag × Bool)} (h : f ∉ writes.map Prod.fst)
    (b : Bool) (p : Byte) : assignAll writes (assignFlag f b p) = assignFlag f b (assignAll writes p) := by
  induction writes generalizing p with
  | nil => rfl
  | cons w rest ih =>
    obtain ⟨hfg, hrest⟩ := not_or.mp (fun hor => h (List.mem_cons.mpr hor))
    simp only [assignAll_cons, assignFlag_comm (Ne.symm hfg), ih hrest]

theorem checkFlag_assignAll_of_not_mem {f : Flag} {writes : List (Flag × Bool)} (h : f ∉ writes.map Prod.fst)
    (p : Byte) : checkFlag f (assignAll writes p) = checkFlag f p := by
  induction writes generalizing p with
  | nil => rfl
  | cons w rest ih =>
    obtain ⟨hfg, hrest⟩ := not_or.mp (fun hor => h (List.mem_cons.mpr hor))
    rw [assignAll_cons, ih hrest, checkFlag_assignFlag_of_ne hfg]

/-! ### The flag writes of a handler -/

/-- The flag writes of `setNZ(v)` (R120). -/
def nzOf (v : Byte) : List (Flag × Bool) := [(.z, v == 0#8), (.n, v.msb)]

/-- The flag writes of a handler on the operand byte `v`, in its order. -/
def flagWrites (m : Mnemonic) (v : Byte) (s : State) : List (Flag × Bool) :=
  match m with
  | .lda | .ldx | .ldy => nzOf v
  | .adc =>
    [(.c, (adc8 s.a v (checkFlag .c s.p)).carry), (.v, (adc8 s.a v (checkFlag .c s.p)).overflow)]
      ++ nzOf (adc8 s.a v (checkFlag .c s.p)).sum
  | .cmp => (.c, (cmp8 s.a v).carry) :: nzOf (cmp8 s.a v).diff
  | .cpx => (.c, (cmp8 s.x v).carry) :: nzOf (cmp8 s.x v).diff
  | .cpy => (.c, (cmp8 s.y v).carry) :: nzOf (cmp8 s.y v).diff
  | .inx => nzOf (inc8 s.x)
  | .iny => nzOf (inc8 s.y)
  | .dex => nzOf (dec8 s.x)
  | .dey => nzOf (dec8 s.y)
  | .tax => nzOf s.a
  | .sta | .stx | .sty | .jmp | .bne | .hlt => []

theorem act_p (m : Mnemonic) (ea : Addr) (v : Byte) (s : State) :
    (act m ea v s).p = assignAll (flagWrites m v s) s.p := by
  cases m with
  | bne => rw [act, branchNotEqual_eq]; rfl
  | _ => rfl

/-- A handler assigns the flags of R18, whatever it works on. -/
theorem mem_flagWrites_iff (f : Flag) (m : Mnemonic) (v : Byte) (s : State) :
    f ∈ (flagWrites m v s).map Prod.fst ↔ m ∈ flagWriters f := by
  cases f <;> cases m <;> simp [flagWrites, nzOf, flagWriters, nzWriters]

/-! ### What a handler leaves unchanged -/

theorem act_sp (m : Mnemonic) (ea : Addr) (v : Byte) (s : State) : (act m ea v s).sp = s.sp := by
  cases m with
  | bne => rw [act, branchNotEqual_eq]
  | _ => rfl

theorem act_run {m : Mnemonic} (h : m ≠ .hlt) (ea : Addr) (v : Byte) (s : State) : (act m ea v s).run = s.run := by
  cases m with
  | hlt => exact absurd rfl h
  | bne => rw [act, branchNotEqual_eq]
  | _ => rfl

theorem wf_act {s : State} (h : s.mem.wf = true) (m : Mnemonic) (ea : Addr) (v : Byte) :
    (act m ea v s).mem.wf = true := by
  cases m with
  | sta | stx | sty => exact wf_store h ea _
  | bne => rw [act, branchNotEqual_eq]; exact h
  | _ => exact h

/-- No handler assigns I, D, B or U, the bits of the mask 0x3C (R19). -/
theorem act_stored_bits (m : Mnemonic) (ea : Addr) (v : Byte) (s : State) :
    (act m ea v s).p &&& 0x3C#8 = s.p &&& 0x3C#8 := by
  have stored (f : Flag) (hf : flagWriters f = []) :
      (act m ea v s).p.getLsbD (flagBit f) = s.p.getLsbD (flagBit f) := by
    have hnot : f ∉ (flagWrites m v s).map Prod.fst := by simp [mem_flagWrites_iff, hf]
    rw [← checkFlag_eq_getLsbD, ← checkFlag_eq_getLsbD, act_p, checkFlag_assignAll_of_not_mem hnot]
  refine BitVec.eq_of_getLsbD_eq fun k hk => ?_
  rw [BitVec.getLsbD_and, BitVec.getLsbD_and]
  match k, hk with
  | 2, _ => exact congrArg (· && _) (stored .i rfl)
  | 3, _ => exact congrArg (· && _) (stored .d rfl)
  | 4, _ => exact congrArg (· && _) (stored .b rfl)
  | 5, _ => exact congrArg (· && _) (stored .u rfl)
  | 0, _ | 1, _ | 6, _ | 7, _ => simp

/-- A step that completes runs the one instruction that its bytes decode to. -/
theorem step_eq_next {s t : State} (h : step s = .next t) :
    ∃ i rest, decode (fetchBytes s) = .ok (i, rest) ∧ t = after i s := by
  rcases step_cases s with ⟨i, rest, hdecode, hexec⟩ | ⟨_, _, hfault⟩
  · exact ⟨i, rest, hdecode, Host.Outcome.next.inj (h.symm.trans (hexec.trans (exec_eq_after i s)))⟩
  · exact nomatch h.symm.trans hfault

/-- Settles O52: each handler stores bytes only through `store`, and writes neither SP nor the bits of 0x3C. -/
theorem stepKeepsStoredState : Obligations.StepKeepsStoredState := by
  rintro sp stored s t ⟨hwf, hsp, hp⟩ hstep
  obtain ⟨i, rest, -, rfl⟩ := step_eq_next hstep
  exact ⟨wf_act (s := s.advance i.length) hwf _ _ _, (act_sp _ _ _ _).trans hsp, (act_stored_bits _ _ _ _).trans hp⟩

/-- Settles O51: the reset state, by its values. -/
theorem resetIsKept : Obligations.ResetIsKept :=
  ⟨wf_resetWith chip, rfl, rfl⟩

/-! ### What a host operation can do -/

theorem loadExecutable_eq_next {address : Addr} {bytes : List Byte} {s t : State}
    (h : loadExecutable address bytes s = .next t) :
    ∃ u, load address bytes s = .next u ∧ t = (u.setPc address).setRun true := by
  unfold loadExecutable at h
  split at h
  · next u hload =>
    cases h
    exact ⟨u, hload, rfl⟩
  · cases h
  · cases h

/-- Settles O53: only loads and steps write memory, and both keep its form. -/
theorem hostOpsKeepMemoryForm : Obligations.HostOpsKeepMemoryForm := by
  intro op s t hwf h
  cases op with
  | reset => cases h; exact wf_resetWith chip
  | load address bytes => exact wf_load hwf h
  | loadExecutable address bytes =>
    obtain ⟨u, hload, rfl⟩ := loadExecutable_eq_next h
    have hu : u.mem.wf = true := wf_load hwf hload
    exact hu
  | writeReg r v => cases h; cases r <;> exact hwf
  | writePc v => cases h; exact hwf
  | setFlag f | clearFlag f => cases h; exact hwf
  | step =>
    obtain ⟨i, rest, -, rfl⟩ := step_eq_next h
    exact wf_act (s := s.advance i.length) hwf _ _ _

end Sys2Proof.Proofs
end

section
/-! SUPPORT. Which instructions read and write SP, the flags and RUN (10_state.md R13, R18, R19, R25), and what the host
reads back of what it wrote (R30). -/

namespace Sys2Proof.Proofs

open Sys2Proof.Machine Sys2Proof.Safety

/-! ### What the resolver looks at -/

/-- The effective address depends on PC, X, Y and memory alone (41_addressing_modes.md R100). -/
theorem modeAddr_congr {s t : State} (hpc : t.pc = s.pc) (hx : t.x = s.x) (hy : t.y = s.y) (hmem : t.mem = s.mem)
    (mode : Mode) (o : Operand) : modeAddr mode o t = modeAddr mode o s := by
  cases mode <;>
    simp only [modeAddr, eaOperand, eaZeroPage, eaZeroPageX, eaZeroPageY, eaAbsolute, eaAbsoluteX, eaAbsoluteY, 
      eaIndirect, eaIndirectX, eaIndirectY, hpc, hx, hy, hmem]

theorem modeByte_congr {s t : State} (hpc : t.pc = s.pc) (hx : t.x = s.x) (hy : t.y = s.y) (hmem : t.mem = s.mem)
    (mode : Mode) (o : Operand) : modeByte mode o t = modeByte mode o s := by
  unfold modeByte
  split
  · rfl
  · rfl
  · rw [modeAddr_congr hpc hx hy hmem, State.byteAt, hmem, State.byteAt]

/-- Where the resolver finds the same, an instruction is the same handler on the same operands. -/
theorem after_eq_act {s t : State} (hpc : t.pc = s.pc) (hx : t.x = s.x) (hy : t.y = s.y) (hmem : t.mem = s.mem)
    (i : Instr) :
    after i t = act i.mnemonic (modeAddr i.mode i.operand s) (modeByte i.mode i.operand s) (t.advance i.length) := by
  rw [after, modeAddr_congr hpc hx hy hmem, modeByte_congr hpc hx hy hmem]

/-! ### SP -/

theorem act_setSp (m : Mnemonic) (ea : Addr) (v : Byte) (s : State) (w : Byte) :
    act m ea v (s.setSp w) = (act m ea v s).setSp w := by
  cases m with
  | bne => simp only [act, branchNotEqual_eq]; rfl
  | _ => rfl

theorem after_setSp (i : Instr) (s : State) (w : Byte) : after i (s.setSp w) = (after i s).setSp w :=
  (after_eq_act rfl rfl rfl rfl i).trans (act_setSp _ _ _ (s.advance i.length) w)

/-- Settles O30: handlers carry SP along, and of the host's operations only reset and the write of SP name it. -/
theorem stackPointerUntouched : Obligations.StackPointerUntouched := by
  refine ⟨fun i s v => ?_, fun op s t h hne => ?_⟩
  · rw [exec_eq_after, exec_eq_after, after_setSp]
    rfl
  · cases op with
    | reset => exact .inl rfl
    | load address bytes =>
      obtain ⟨-, rfl⟩ := load_eq_next h
      exact absurd rfl hne
    | loadExecutable address bytes =>
      obtain ⟨u, hload, rfl⟩ := loadExecutable_eq_next h
      obtain ⟨-, rfl⟩ := load_eq_next hload
      exact absurd rfl hne
    | writeReg r v =>
      cases h
      cases r with
      | sp => exact .inr ⟨v, rfl⟩
      | a | x | y | p => exact absurd rfl hne
    | writePc | setFlag | clearFlag => cases h; exact absurd rfl hne
    | step =>
      obtain ⟨i, rest, -, rfl⟩ := step_eq_next h
      exact absurd (act_sp _ _ _ (s.advance i.length)) hne

/-! ### The flags -/

theorem after_p (i : Instr) (s : State) :
    (after i s).p = assignAll (flagWrites i.mnemonic (modeByte i.mode i.operand s) s) s.p := by
  rw [after, act_p]
  cases i.mnemonic <;> rfl

/-- Where neither C for ADC nor Z for BNE is touched, a handler on another P gives the same state but for P. -/
theorem act_setP {m : Mnemonic} {s : State} {q : Byte} (hc : m ≠ .adc ∨ checkFlag .c q = checkFlag .c s.p)
    (hz : m ≠ .bne ∨ checkFlag .z q = checkFlag .z s.p) (ea : Addr) (v : Byte) :
    act m ea v (s.setP q) = (act m ea v s).setP (assignAll (flagWrites m v s) q) := by
  cases m with
  | adc =>
    have hc := hc.resolve_left (fun hne => hne rfl)
    simp only [act, addCarry_eq, State.setP_p, State.setP_a, hc, flagWrites]
    rfl
  | bne =>
    have hz := hz.resolve_left (fun hne => hne rfl)
    simp only [act, branchNotEqual_eq, State.setP_p, hz]
    rfl
  | _ => rfl

theorem after_setP {i : Instr} {s : State} {q : Byte} (hc : i.mnemonic ≠ .adc ∨ checkFlag .c q = checkFlag .c s.p)
    (hz : i.mnemonic ≠ .bne ∨ checkFlag .z q = checkFlag .z s.p) :
    after i (s.setP q)
      = (after i s).setP (assignAll (flagWrites i.mnemonic (modeByte i.mode i.operand s) (s.advance i.length)) q) :=
  (after_eq_act rfl rfl rfl rfl i).trans (act_setP (s := s.advance i.length) hc hz _ _)

/-- Only ADC reads C, and only BNE reads Z; every other flag of every other instruction is carried along or
overwritten. -/
theorem ignores_flag {f : Flag} {i : Instr} (hc : f ≠ .c ∨ i.mnemonic ≠ .adc) (hz : f ≠ .z ∨ i.mnemonic ≠ .bne) :
    Ignores (fun s b => s.setP (assignFlag f b s.p)) i := by
  have hafter (s : State) (b : Bool) := after_setP (i := i) (s := s) (q := assignFlag f b s.p)
    (hc.symm.imp_right fun hne => checkFlag_assignFlag_of_ne (Ne.symm hne) b s.p)
    (hz.symm.imp_right fun hne => checkFlag_assignFlag_of_ne (Ne.symm hne) b s.p)
  rw [ignores_iff_after]
  by_cases hf : i.mnemonic ∈ flagWriters f
  · refine .inr fun s b => ?_
    rw [hafter, assignAll_assignFlag_of_mem ((mem_flagWrites_iff ..).mpr hf)]
    exact congrArg (after i s).setP (act_p _ _ _ (s.advance i.length)).symm
  · refine .inl fun s b => ?_
    rw [hafter, assignAll_assignFlag_of_not_mem (mt (mem_flagWrites_iff ..).mp hf)]
    exact congrArg (fun p => (after i s).setP (assignFlag f b p)) (act_p _ _ _ (s.advance i.length)).symm

/-- An assigned flag that the handler does not read changes where it stood the other way before. -/
theorem writes_flag_of_not_read {f : Flag} {i : Instr} (hw : i.mnemonic ∈ flagWriters f)
    (hc : f ≠ .c ∨ i.mnemonic ≠ .adc) : Writes (fun s => checkFlag f s.p) i := by
  set b := checkFlag f (after i State.reset).p with hb
  set q := assignFlag f (!b) State.reset.p
  have hbne : i.mnemonic ≠ .bne := by
    intro h
    rw [h] at hw
    cases f <;> simp [flagWriters, nzWriters] at hw
  have hafter : (after i (State.reset.setP q)).p = (after i State.reset).p := by
    rw [after_setP (hc.symm.imp_right fun hne => checkFlag_assignFlag_of_ne (Ne.symm hne) _ _) (.inl hbne),
      State.setP_p, assignAll_assignFlag_of_mem ((mem_flagWrites_iff ..).mpr hw)]
    exact (act_p _ _ _ (State.reset.advance i.length)).symm
  refine (writes_iff_after _ i).mpr ⟨State.reset.setP q, ?_⟩
  simp only [hafter, ← hb, State.setP_p, q, checkFlag_assignFlag_same]
  cases b <;> decide

/-- C after ADC is the carry of the sum. -/
theorem checkFlag_c_addCarry (m : Byte) (s : State) :
    checkFlag .c (addCarry m s).p = decide (255 < s.a.toNat + m.toNat + (checkFlag .c s.p).toNat) := by
  rw [addCarry_eq, setNZ, checkFlag_assignFlag_of_ne (by decide), checkFlag_assignFlag_of_ne (by decide),
    checkFlag_assignFlag_of_ne (by decide), checkFlag_assignFlag_same]
  rfl

/-- ADC changes C: to 1 with A = 0xFF and C = 0 where the operand byte is not 0, to 0 with A = 0 and C = 1 where it
is. -/
theorem writes_carry_of_adc {i : Instr} (h : i.mnemonic = .adc) : Writes (fun s => checkFlag .c s.p) i := by
  set v := modeByte i.mode i.operand State.reset
  have hcarry (s : State) (hs : s.mem = []) : checkFlag .c (after i s).p
      = decide (255 < s.a.toNat + v.toNat + (checkFlag .c s.p).toNat) := by
    have hbyte : modeByte i.mode i.operand s = v := modeByte_of_blank_memory _ _ hs rfl
    rw [after, hbyte, h]
    exact checkFlag_c_addCarry v (s.advance i.length)
  rw [writes_iff_after]
  by_cases hv : v = 0
  · refine ⟨State.reset.setP 1, ?_⟩
    rw [hcarry _ rfl, hv]
    decide
  · have hpos : 0 < v.toNat := Nat.pos_of_ne_zero fun h0 => hv (BitVec.eq_of_toNat_eq h0)
    refine ⟨State.reset.setA 0xFF, ?_⟩
    have hc : checkFlag .c (State.reset.setA 0xFF).p = false := checkFlag_c_reset
    have ha : (State.reset.setA 0xFF).a.toNat = 255 := rfl
    rw [hcarry _ rfl, hc, ha, decide_eq_true (by omega)]
    decide

theorem writes_flag_iff (f : Flag) (i : Instr) : Writes (fun s => checkFlag f s.p) i ↔ i.mnemonic ∈ flagWriters f := by
  constructor
  · intro h
    obtain ⟨s, hs⟩ := (writes_iff_after _ i).mp h
    by_contra hf
    exact hs (by rw [after_p, checkFlag_assignAll_of_not_mem (mt (mem_flagWrites_iff ..).mp hf)])
  · intro hw
    by_cases hc : f = .c ∧ i.mnemonic = .adc
    · obtain ⟨rfl, hadc⟩ := hc
      exact writes_carry_of_adc hadc
    · exact writes_flag_of_not_read hw (not_and_or.mp hc)

/-- The sum of ADC tells C from not C. -/
theorem adc_reads_carry {i : Instr} (h : i.mnemonic = .adc) :
    ¬Ignores (fun s b => s.setP (assignFlag .c b s.p)) i := by
  have hsum (b : Bool) : (after i (State.reset.setP (assignFlag .c b State.reset.p))).a
      = modeByte i.mode i.operand State.reset + BitVec.ofNat 8 b.toNat := by
    have hbyte := modeByte_of_blank_memory i.mode i.operand (s := State.reset.setP (assignFlag .c b State.reset.p))
      (t := State.reset) rfl rfl
    have ha : State.reset.a = 0#8 := rfl
    rw [after, hbyte, h]
    simp [act, addCarry_eq, adc8_sum, ha]
  refine not_ignores_of_observed State.a (fun _ _ => rfl) (s := State.reset) (v := false) (w := true) ?_
  simp [hsum]

theorem toInt_sext16 (d : Byte) : (sext16 d).toInt = d.toInt :=
  BitVec.toInt_signExtend_of_le (by decide)

/-- The branch tells Z from not Z where its displacement leads elsewhere. -/
theorem bne_reads_zero {d : Byte} (hd : d ≠ 0) : ¬Ignores (fun s b => s.setP (assignFlag .z b s.p)) (.bne d) := by
  have hext : sext16 d ≠ 0 := fun h =>
    hd (BitVec.eq_of_toInt_eq ((toInt_sext16 d).symm.trans (congrArg BitVec.toInt h)))
  have hpc (b : Bool) : (after (.bne d) (State.reset.setP (assignFlag .z b State.reset.p))).pc
      = if b then 2#16 else 2#16 + sext16 d := by
    rw [after]
    simp only [Instr.mnemonic, Instr.parts, act, branchNotEqual_eq, State.advance_p, State.setP_p,
      checkFlag_assignFlag_same]
    rfl
  refine not_ignores_of_observed State.pc (fun _ _ => rfl) (s := State.reset) (v := false) (w := true) ?_
  rw [hpc, hpc]
  simpa using hext

/-- Settles O31: the flag writes of the handlers, and the two handlers that look at a flag. -/
theorem flagUse : Obligations.FlagUse := by
  refine ⟨writes_flag_iff, fun f i h => ?_, fun _ => adc_reads_carry, fun _ => bne_reads_zero⟩
  by_contra hne
  obtain ⟨hc, hz⟩ := not_or.mp hne
  exact h (ignores_flag (not_and_or.mp hc) (not_and_or.mp hz))

end Sys2Proof.Proofs
end

section
/-! SUPPORT. RUN (10_state.md R25): HLT alone writes it in a step, no step reads it, and a run looks at it first.
Then what the host reads back (R30) and the state after reset (R31, R32). -/

namespace Sys2Proof.Proofs

open Sys2Proof.Machine Sys2Proof.Safety

/-! ### RUN and a step -/

theorem eq_hlt_of_mnemonic {i : Instr} (h : i.mnemonic = .hlt) : i = .hlt := by
  cases i with
  | hlt => rfl
  | _ => exact nomatch h

theorem after_run {i : Instr} (h : i ≠ .hlt) (s : State) : (after i s).run = s.run :=
  act_run (mt eq_hlt_of_mnemonic h) _ _ (s.advance i.length)

theorem act_setRun {m : Mnemonic} (h : m ≠ .hlt) (ea : Addr) (v : Byte) (s : State) (b : Bool) :
    act m ea v (s.setRun b) = (act m ea v s).setRun b := by
  cases m with
  | hlt => exact absurd rfl h
  | bne => simp only [act, branchNotEqual_eq]; rfl
  | _ => rfl

theorem after_setRun {i : Instr} (h : i ≠ .hlt) (s : State) (b : Bool) :
    after i (s.setRun b) = (after i s).setRun b :=
  (after_eq_act rfl rfl rfl rfl i).trans (act_setRun (mt eq_hlt_of_mnemonic h) _ _ (s.advance i.length) b)

theorem after_hlt_setRun (s : State) (b : Bool) : after .hlt (s.setRun b) = after .hlt s := rfl

/-- A step carries RUN along, or forgets it at an HLT (40_fetch_decode_execute.md R95). -/
theorem step_setRun (s : State) (b : Bool) :
    step (s.setRun b) = step s ∨ step (s.setRun b) = mapNext (fun t => t.setRun b) (step s) := by
  rcases step_cases s with ⟨i, rest, hdecode, hexec⟩ | ⟨e, hdecode, hfault⟩
  · have hstep : step (s.setRun b) = exec i (s.setRun b) := step_of_decode hdecode
    rw [hstep, hexec, exec_eq_after, exec_eq_after]
    by_cases hi : i = .hlt
    · exact .inl (by rw [hi, after_hlt_setRun])
    · exact .inr (by rw [after_setRun hi, mapNext])
  · have hstep : step (s.setRun b) = .fault (.unsupportedOpcode s.pc (s.byteAt s.pc)) :=
      step_of_decode_error (s := s.setRun b) hdecode
    exact .inl (hstep.trans hfault.symm)

/-! ### RUN and the host -/

/-- What a host operation does to RUN. -/
theorem perform_run_cases {op : HostOp} {s t : State} (h : op.perform s = .next t) :
    t.run = s.run ∨ (t.run = true ∧ ∃ address bytes, op = .loadExecutable address bytes)
      ∨ (t.run = false ∧ (op = .reset ∨ (op = .step ∧ ∃ rest, decode (fetchBytes s) = .ok (.hlt, rest)))) := by
  cases op with
  | reset => cases h; exact .inr (.inr ⟨rfl, .inl rfl⟩)
  | load address bytes =>
    obtain ⟨-, rfl⟩ := load_eq_next h
    exact .inl rfl
  | loadExecutable address bytes =>
    obtain ⟨u, -, rfl⟩ := loadExecutable_eq_next h
    exact .inr (.inl ⟨rfl, address, bytes, rfl⟩)
  | writeReg r v => cases h; cases r <;> exact .inl rfl
  | writePc | setFlag | clearFlag => cases h; exact .inl rfl
  | step =>
    obtain ⟨i, rest, hdecode, rfl⟩ := step_eq_next h
    by_cases hi : i = .hlt
    · subst hi
      exact .inr (.inr ⟨rfl, .inr ⟨rfl, rest, hdecode⟩⟩)
    · exact .inl (after_run hi s)

/-- A run of a core whose RUN is 0 ends at once (40_fetch_decode_execute.md R98). -/
theorem runsTo_of_not_run {s t : State} {e : RunEnd} (hs : s.run = false) : RunsTo s e t ↔ e = .halted ∧ t = s := by
  constructor
  · intro h
    cases h with
    | halted => exact ⟨rfl, rfl⟩
    | faulted hrun | stepped hrun => exact nomatch hs.symm.trans hrun
  · rintro ⟨rfl, rfl⟩
    exact .halted hs

/-- Settles O32: only `loadExecutable` sets RUN, only HLT and reset clear it, and a step carries it along or
forgets it. -/
theorem runFlagUse : Obligations.RunFlagUse := by
  refine ⟨fun op s t h => ⟨fun hs ht => ?set, fun hs ht => ?clear⟩, fun address bytes s t h => ?loadExecutable,
    fun s => ⟨_, rfl, rfl⟩, rfl, step_setRun, fun s t e => runsTo_of_not_run, fun _ _ => rfl, fun _ _ => rfl⟩
  case set =>
    rcases perform_run_cases h with hkept | ⟨_, hload⟩ | ⟨hfalse, _⟩
    · exact nomatch ht.symm.trans (hkept.trans hs)
    · exact hload
    · exact nomatch ht.symm.trans hfalse
  case clear =>
    rcases perform_run_cases h with hkept | ⟨htrue, _⟩ | ⟨_, hcleared⟩
    · exact nomatch ht.symm.trans (hkept.trans hs)
    · exact nomatch ht.symm.trans htrue
    · exact hcleared
  case loadExecutable =>
    obtain ⟨u, -, rfl⟩ := loadExecutable_eq_next h
    rfl

/-! ### Host access and reset -/

theorem readReg_writeReg_of_ne {r r' : HostReg} (h : r' ≠ r) (v : Byte) (s : State) :
    readReg r' (writeReg r v s) = readReg r' s := by
  cases r <;> cases r' <;> simp [readReg, writeReg] at h ⊢

/-- Settles O55: each write names one field, and the two flag helpers are flag writes of one bit. -/
theorem hostAccess : Obligations.HostAccess := by
  refine fun s => ⟨fun r v => ?register, fun v => ?pc, fun f f' => ?flag, rfl⟩
  case register =>
    refine ⟨_, rfl, rfl, ?_, fun _ hne => readReg_writeReg_of_ne hne v s, ?_, ?_, ?_⟩ <;> cases r <;> rfl
  case pc => exact ⟨_, rfl, rfl, fun r => by cases r <;> rfl, rfl, rfl⟩
  case flag =>
    have hset : setFlag f s.p = assignFlag f true s.p := rfl
    have hclear (p : Byte) : clearFlag f p = assignFlag f false p := rfl
    refine ⟨_, _, rfl, rfl, ?_, ?_, fun hne => ⟨?_, ?_⟩, rfl, rfl⟩ <;>
      simp only [State.setP_p, hset, hclear, checkFlag_assignFlag_same]
    · rw [checkFlag_assignFlag_of_ne hne]
    · rw [checkFlag_assignFlag_of_ne hne, checkFlag_assignFlag_of_ne hne]

/-- Settles O50: the fields of `resetWith`, under each convention. -/
theorem resetValues : Obligations.ResetValues := by
  refine ⟨fun c => ⟨rfl, rfl, rfl, rfl, rfl, fun _ => rfl, fun h => ?powerOn, fun h => ?zero⟩, rfl, rfl, rfl⟩ <;>
    exact ⟨by simp [State.resetWith, h], by simp [State.resetWith, h]⟩

end Sys2Proof.Proofs
end

section
/-! SUPPORT. ADC's sum, carry and signed overflow (42_alu.md R121, R126; 44_adc_compare.md R140), and the results and
frames of the instructions, one lemma for each handler. -/

namespace Sys2Proof.Proofs

open Sys2Proof.Machine Sys2Proof.Safety

/-! ### The adder -/

theorem toNat_adc8_sum (a m : Byte) (cin : Bool) :
    (adc8 a m cin).sum.toNat = (a.toNat + m.toNat + cin.toNat) % 256 :=
  BitVec.toNat_ofNat ..

theorem adc8_carry (a m : Byte) (cin : Bool) :
    (adc8 a m cin).carry = decide (256 ≤ a.toNat + m.toNat + cin.toNat) := rfl

/-- Settles O23: the carry is the part of the three-term sum that the 8 bits leave out. -/
theorem adcSumAndCarry : Obligations.AdcSumAndCarry := by
  intro a m cin
  have ha := a.isLt
  have hm := m.isLt
  have hcin := cin.toNat_le
  rw [toNat_adc8_sum, adc8_carry]
  by_cases hc : 256 ≤ a.toNat + m.toNat + cin.toNat
  · rw [decide_eq_true hc, Bool.toNat_true]
    omega
  · rw [decide_eq_false hc, Bool.toNat_false]
    omega

/-- A byte and 0x80 keep bit 7 alone. -/
theorem and_0x80_ne_zero (v : Byte) : (v &&& 0x80#8 != 0) = v.msb := by
  have hmask : v &&& 0x80#8 = v &&& Flag.n.mask := rfl
  rw [hmask]
  exact checkFlag_eq_getLsbD .n v

/-- The overflow output compares the signs of the operands with the sign of the sum. -/
theorem adc8_overflow (a m : Byte) (cin : Bool) :
    (adc8 a m cin).overflow = ((m.msb ^^ (adc8 a m cin).sum.msb) && (a.msb ^^ (adc8 a m cin).sum.msb)) := by
  have h := and_0x80_ne_zero ((m ^^^ (adc8 a m cin).sum) &&& (a ^^^ (adc8 a m cin).sum))
  rw [BitVec.msb_and, BitVec.msb_xor, BitVec.msb_xor] at h
  exact h

theorem overflow_iff_signs (a m : Byte) (cin : Bool) :
    (adc8 a m cin).overflow = true ↔ a.msb = m.msb ∧ (adc8 a m cin).sum.msb ≠ a.msb := by
  rw [adc8_overflow]
  cases a.msb <;> cases m.msb <;> cases (adc8 a m cin).sum.msb <;> decide

/-- A byte as a signed number: 256 less where bit 7 is set. -/
theorem toInt_byte (v : Byte) : v.toInt = if v.msb then (v.toNat : Int) - 256 else v.toNat :=
  BitVec.toInt_eq_msb_cond v

theorem overflow_iff_out_of_range (a m : Byte) (cin : Bool) :
    (adc8 a m cin).overflow = true ↔
      a.toInt + m.toInt + (cin.toNat : Int) < -128 ∨ 127 < a.toInt + m.toInt + (cin.toNat : Int) := by
  have ha := a.isLt
  have hm := m.isLt
  have hcin := cin.toNat_le
  have hsum := toNat_adc8_sum a m cin
  rw [overflow_iff_signs, toInt_byte, toInt_byte, ne_eq, BitVec.msb_eq_decide, BitVec.msb_eq_decide,
    BitVec.msb_eq_decide, hsum]
  simp only [decide_eq_decide, decide_eq_true_eq]
  split <;> split <;> omega

/-- Settles O24: bit 7 of the operands and of the sum, and the signed range. -/
theorem adcOverflowIsSigned : Obligations.AdcOverflowIsSigned :=
  fun a m cin => ⟨overflow_iff_signs a m cin, overflow_iff_out_of_range a m cin⟩

end Sys2Proof.Proofs
end

section
/-! SUPPORT. Words of memory as numbers (20_memory.md R44, R46), canonical memories as functions of the address (R40,
R41), and the frame of the host's loads (R48, R49; 70_reset_and_hazards.md R203). -/

namespace Sys2Proof.Proofs

open Sys2Proof.Machine Sys2Proof.Safety

/-! ### Words -/

/-- The next address wraps at the top of memory. -/
theorem addr_succ (a : Addr) : a + 1#16 = BitVec.ofNat 16 ((a.toNat + 1) % 65536) := by
  bv_omega

theorem toNat_readWord (m : Memory) (addr : Addr) :
    (m.readWord addr).toNat
      = (m.readByte addr).toNat + 256 * (m.readByte (BitVec.ofNat 16 ((addr.toNat + 1) % 65536))).toNat := by
  rw [Memory.readWord, toNat_joinBytes, addr_succ]

theorem addr_ne_succ (a : Addr) : a ≠ a + 1#16 := by
  bv_omega

theorem readWord_writeWord {m : Memory} (h : m.wf = true) (addr v : Addr) : (m.writeWord addr v).readWord addr = v := by
  have hlow := Memory.wf_writeByte h addr (loByte v)
  rw [Memory.readWord, Memory.writeWord, readByte_writeByte hlow, readByte_writeByte hlow, if_neg (addr_ne_succ addr),
    readByte_writeByte h, if_pos rfl, if_pos rfl, joinBytes_split]

theorem readByte_writeWord_of_ne {m : Memory} (h : m.wf = true) {addr k : Addr} (v : Addr) (hlow : k ≠ addr)
    (hhigh : k ≠ addr + 1#16) : (m.writeWord addr v).readByte k = m.readByte k := by
  rw [Memory.writeWord, readByte_writeByte (Memory.wf_writeByte h _ _), if_neg hhigh, readByte_writeByte h, if_neg hlow]

/-- Settles O16: two byte reads, and two byte writes to different cells. -/
theorem wordReadAndWrite : Obligations.WordReadAndWrite := fun m addr v =>
  ⟨toNat_readWord m addr, fun h =>
    ⟨readWord_writeWord h addr v, fun _ hlow hhigh => readByte_writeWord_of_ne h v hlow hhigh⟩⟩

/-! ### Canonical memories -/

theorem read_head (k : Nat) (v : Byte) (m : Memory) : Memory.read ((k, v) :: m) k = v :=
  if_pos rfl

/-- The first listed address of a memory is at most any address that reads as something. -/
theorem head_le_of_read_ne_blank {lo k j : Nat} {v : Byte} {m : Memory} (h : Memory.wfFrom lo ((k, v) :: m) = true)
    (hj : Memory.read ((k, v) :: m) j ≠ Memory.blank) : k ≤ j := by
  obtain ⟨-, hk, hv, hm⟩ := (Memory.wfFrom_cons ..).mp h
  have hfrom : Memory.wfFrom k ((k, v) :: m) = true := (Memory.wfFrom_cons ..).mpr ⟨le_rfl, hk, hv, hm⟩
  by_contra hlt
  exact hj (Memory.read_below hfrom (Nat.lt_of_not_le hlt))

/-- Two canonical memories with the same reads list the same cells. -/
theorem memory_eq_of_read_eq {lo : Nat} {m m' : Memory} (h : Memory.wfFrom lo m = true)
    (h' : Memory.wfFrom lo m' = true) (hread : ∀ k < 65536, Memory.read m k = Memory.read m' k) : m = m' := by
  induction m generalizing lo m' with
  | nil =>
    cases m' with
    | nil => rfl
    | cons c' m' =>
      obtain ⟨k', v'⟩ := c'
      obtain ⟨-, hk', hv', -⟩ := (Memory.wfFrom_cons ..).mp h'
      exact absurd ((read_head k' v' m').symm.trans (hread k' hk').symm) hv'
  | cons c m ih =>
    obtain ⟨k, v⟩ := c
    obtain ⟨-, hk, hv, hm⟩ := (Memory.wfFrom_cons ..).mp h
    have hhead := (hread k hk).symm.trans (read_head k v m)
    cases m' with
    | nil => exact absurd hhead.symm hv
    | cons c' m' =>
      obtain ⟨k', v'⟩ := c'
      obtain ⟨-, hk', hv', hm'⟩ := (Memory.wfFrom_cons ..).mp h'
      have hhead' := (hread k' hk').trans (read_head k' v' m')
      have hkk : k = k' := le_antisymm (head_le_of_read_ne_blank h (hhead' ▸ hv'))
        (head_le_of_read_ne_blank h' (hhead ▸ hv))
      subst hkk
      have hvv : v = v' := hhead.symm.trans (read_head k v' m')
      have htail : ∀ j < 65536, Memory.read m j = Memory.read m' j := fun j hj => by
        by_cases hjk : k = j
        · subst hjk
          rw [Memory.read_below hm (Nat.lt_succ_self k), Memory.read_below hm' (Nat.lt_succ_self k)]
        · simpa [Memory.read, hjk] using hread j hj
      rw [hvv, ih hm hm' htail]

/-- Settles O17: the cells of a canonical memory can be read off it one by one. -/
theorem equalReadsEqualMemories : Obligations.EqualReadsEqualMemories := by
  intro m m' h h' hread
  refine memory_eq_of_read_eq h h' fun k hk => ?_
  have hk' : (BitVec.ofNat 16 k).toNat = k := (BitVec.toNat_ofNat ..).trans (Nat.mod_eq_of_lt hk)
  simpa [Memory.readByte, hk'] using hread (BitVec.ofNat 16 k)

/-! ### Loads -/

theorem load_fits {address : Addr} {bytes : List Byte} (h : address.toNat + bytes.length ≤ 65536) (s : State) :
    load address bytes s = .next { s with mem := s.mem.writeBytes address.toNat bytes } := by
  rcases load_cases address bytes s with ⟨_, hnext⟩ | ⟨hgt, _⟩
  · exact hnext
  · exact absurd h (Nat.not_le_of_lt hgt)

theorem load_out_of_range {address : Addr} {bytes : List Byte} (h : 65536 < address.toNat + bytes.length) (s : State) :
    load address bytes s = .fault (.loadOutOfRange address bytes.length) :=
  if_pos h

theorem loadExecutable_of_load {address : Addr} {bytes : List Byte} {s t : State} (h : load address bytes s = .next t) :
    loadExecutable address bytes s = .next ((t.setPc address).setRun true) := by
  rw [loadExecutable, h]

theorem loadExecutable_out_of_range {address : Addr} {bytes : List Byte} (h : 65536 < address.toNat + bytes.length)
    (s : State) : loadExecutable address bytes s = .fault (.loadOutOfRange address bytes.length) := by
  rw [loadExecutable, load_out_of_range h]

/-- A load of nothing changes nothing (D30; log 26). -/
theorem load_nil (address : Addr) (s : State) : load address [] s = .next s :=
  load_fits (bytes := []) (Nat.le_of_lt address.isLt) s

theorem byteAt_load_outside {s t : State} (hwf : s.mem.wf = true) {address : Addr} {bytes : List Byte}
    (h : load address bytes s = .next t) {k : Addr}
    (hk : k.toNat < address.toNat ∨ address.toNat + bytes.length ≤ k.toNat) : t.byteAt k = s.byteAt k := by
  obtain ⟨hle, rfl⟩ := load_eq_next h
  exact read_writeBytes_outside hwf hle hk

/-- Settles O19: the bytes go into memory, where they fit, and nowhere else. -/
theorem loadBoundAndFrame : Obligations.LoadBoundAndFrame := by
  refine fun s address bytes hwf => ⟨fun hle => ?fits, fun hgt => load_out_of_range hgt s, load_nil address s⟩
  have hload := load_fits hle s
  exact ⟨_, hload, ⟨rfl, rfl, rfl, rfl, rfl⟩, rfl, rfl, fun k hk => byteAt_load_outside hwf hload hk⟩

/-- Settles O20: the load, then PC and RUN. -/
theorem loadExecutableEffect : Obligations.LoadExecutableEffect := by
  refine fun s address bytes hwf => ⟨fun hle => ?fits, fun hgt => loadExecutable_out_of_range hgt s⟩
  have hload := load_fits hle s
  exact ⟨_, loadExecutable_of_load hload, rfl, rfl, rfl, rfl, rfl, rfl, rfl, fun i hi => byteAt_load hwf hload hi,
    fun k hk => byteAt_load_outside hwf hload hk⟩

end Sys2Proof.Proofs
end

section
/-! SUPPORT. The results and frames of the instructions (43_load_store.md to 46_control_flow.md), one lemma for each
handler at the state past the instruction; a form of an instruction only chooses the operand. -/

namespace Sys2Proof.Proofs

open Sys2Proof.Machine Sys2Proof.Safety

theorem pastBytes_advance (s : State) (n : Nat) : PastBytes s (s.advance n) n := by
  simp [PastBytes]

/-! ### Loads and stores -/

theorem loadA_writesRegs (s : State) (v : Byte) (n : Nat) :
    WritesRegs s (.next (loadA v (s.advance n))) v s.x s.y v n :=
  ⟨_, rfl, ⟨rfl, rfl, rfl, rfl, rfl⟩, onlyNZ_setNZ v s.p, pastBytes_advance s n, fun _ => rfl⟩

theorem loadX_writesRegs (s : State) (v : Byte) (n : Nat) :
    WritesRegs s (.next (loadX v (s.advance n))) s.a v s.y v n :=
  ⟨_, rfl, ⟨rfl, rfl, rfl, rfl, rfl⟩, onlyNZ_setNZ v s.p, pastBytes_advance s n, fun _ => rfl⟩

theorem loadY_writesRegs (s : State) (v : Byte) (n : Nat) :
    WritesRegs s (.next (loadY v (s.advance n))) s.a s.x v v n :=
  ⟨_, rfl, ⟨rfl, rfl, rfl, rfl, rfl⟩, onlyNZ_setNZ v s.p, pastBytes_advance s n, fun _ => rfl⟩

theorem oneByteStored_store {s : State} (h : s.mem.wf = true) (ea : Addr) (v : Byte) :
    OneByteStored s (store ea v s) ea v :=
  ⟨(readByte_writeByte h ea ea v).trans (if_pos rfl), fun k hk => (readByte_writeByte h ea k v).trans (if_neg hk)⟩

theorem store_storesByte {s : State} (h : s.mem.wf = true) (ea : Addr) (v : Byte) (n : Nat) :
    StoresByte s (.next (store ea v (s.advance n))) ea v n :=
  ⟨_, rfl, ⟨rfl, rfl, rfl, rfl, rfl⟩, rfl, pastBytes_advance s n, oneByteStored_store (s := s.advance n) h ea v⟩

/-- Settles O33: in each form LDA loads A. -/
theorem ldaResult : Obligations.LdaResult := fun s =>
  have load := loadA_writesRegs s
  ⟨fun d => load d 2, fun _ => load _ 2, fun _ => load _ 2, fun _ => load _ 3, fun _ => load _ 3, fun _ => load _ 3,
    fun _ => load _ 2, fun _ => load _ 2⟩

/-- Settles O34: in each form LDX loads X. -/
theorem ldxResult : Obligations.LdxResult := fun s =>
  have load := loadX_writesRegs s
  ⟨fun d => load d 2, fun _ => load _ 2, fun _ => load _ 2, fun _ => load _ 3, fun _ => load _ 3⟩

/-- Settles O35: in each form LDY loads Y. -/
theorem ldyResult : Obligations.LdyResult := fun s =>
  have load := loadY_writesRegs s
  ⟨fun d => load d 2, fun _ => load _ 2, fun _ => load _ 2, fun _ => load _ 3, fun _ => load _ 3⟩

/-- Settles O36: in each form STA stores A. -/
theorem staResult : Obligations.StaResult := fun s h =>
  have store (ea : Addr) := store_storesByte h ea s.a
  ⟨fun _ => store _ 2, fun _ => store _ 2, fun _ => store _ 3, fun _ => store _ 3, fun _ => store _ 3,
    fun _ => store _ 2, fun _ => store _ 2⟩

/-- Settles O37: in each form STX stores X and STY stores Y. -/
theorem stxStyResult : Obligations.StxStyResult := fun s h =>
  have storeX (ea : Addr) := store_storesByte h ea s.x
  have storeY (ea : Addr) := store_storesByte h ea s.y
  ⟨fun _ => storeX _ 2, fun _ => storeX _ 2, fun _ => storeX _ 3, fun _ => storeY _ 2, fun _ => storeY _ 2,
    fun _ => storeY _ 3⟩

/-! ### ADC and the compares -/

/-- The flags after `setNZ(r)` on a status register that holds C and V as given and the stored bits of `p`. -/
theorem flagsAre_setNZ {p q : Byte} {c v : Bool} (hc : q.getLsbD 0 = c) (hv : q.getLsbD 6 = v)
    (hstored : ∀ k, 2 ≤ k → k ≤ 5 → q.getLsbD k = p.getLsbD k) (r : Byte) :
    FlagsAre p (setNZ r q) c (decide (r = 0)) v (decide (128 ≤ r.toNat)) := by
  obtain ⟨hc', hz, hv', hn, hkept⟩ := onlyNZ_setNZ r q
  exact ⟨hc'.trans hc, hz, hv'.trans hv, hn, fun k hlo hhi => (hkept k hlo hhi).trans (hstored k hlo hhi)⟩

theorem compare_diff_eq_zero (r m : Byte) : decide ((cmp8 r m).diff = 0) = decide (r = m) :=
  decide_eq_decide.mpr sub_eq_zero

theorem toNat_compare_diff (r m : Byte) : (cmp8 r m).diff.toNat = (r.toNat + 256 - m.toNat) % 256 := by
  have hm := m.isLt
  rw [cmp8, BitVec.toNat_sub]
  omega

theorem compare_compares (s : State) (r m : Byte) (n : Nat) : Compares s (.next (compare r m (s.advance n))) r m n := by
  have hbit {k : Nat} (hk : k < 8) := getLsbD_assignFlag .c (cmp8 r m).carry s.p hk
  have hflags := flagsAre_setNZ (p := s.p) (hbit (k := 0) (by decide)) (hbit (k := 6) (by decide))
    (fun k hlo hhi => (hbit (k := k) (by omega)).trans (if_neg (fun h : k = 0 => by omega))) (cmp8 r m).diff
  rw [compare_diff_eq_zero, toNat_compare_diff] at hflags
  exact ⟨_, rfl, ⟨rfl, rfl, rfl, rfl, rfl⟩, hflags, pastBytes_advance s n, fun _ => rfl⟩

/-- Settles O39: in each form CMP compares A. -/
theorem cmpResult : Obligations.CmpResult := fun s =>
  have cmp := compare_compares s s.a
  ⟨fun d => cmp d 2, fun _ => cmp _ 2, fun _ => cmp _ 2, fun _ => cmp _ 3, fun _ => cmp _ 3, fun _ => cmp _ 3,
    fun _ => cmp _ 2, fun _ => cmp _ 2⟩

/-- Settles O40: in each form CPX compares X and CPY compares Y. -/
theorem cpxCpyResult : Obligations.CpxCpyResult := fun s =>
  have cpx := compare_compares s s.x
  have cpy := compare_compares s s.y
  ⟨fun d => cpx d 2, fun _ => cpx _ 2, fun _ => cpx _ 3, fun d => cpy d 2, fun _ => cpy _ 2, fun _ => cpy _ 3⟩

theorem addCarry_addsCarry (s : State) (m : Byte) (n : Nat) : AddsCarry s (.next (addCarry m (s.advance n))) m n := by
  have hcin : (checkFlag .c s.p).toNat = carryIn s := congrArg Bool.toNat (checkFlag_eq_getLsbD .c s.p)
  set r := adc8 s.a m (checkFlag .c s.p) with hr
  have hbit {k : Nat} (hk : k < 8) : (assignFlag .v r.overflow (assignFlag .c r.carry s.p)).getLsbD k
      = if k = 6 then r.overflow else if k = 0 then r.carry else s.p.getLsbD k := by
    rw [getLsbD_assignFlag .v _ _ hk, getLsbD_assignFlag .c _ _ hk]
    rfl
  have hflags := flagsAre_setNZ (p := s.p) (hbit (k := 0) (by decide)) (hbit (k := 6) (by decide))
    (fun k hlo hhi => by rw [hbit (by omega), if_neg (by omega), if_neg (by omega)]) r.sum
  have hcarry : r.carry = decide (256 ≤ s.a.toNat + m.toNat + carryIn s) := by rw [hr, adc8_carry, hcin]
  have hoverflow : r.overflow = decide (s.a.toInt + m.toInt + (carryIn s : Int) < -128
      ∨ 127 < s.a.toInt + m.toInt + (carryIn s : Int)) := by
    rw [Bool.eq_iff_iff, decide_eq_true_iff, hr, overflow_iff_out_of_range, hcin]
  have hsum : r.sum.toNat = (s.a.toNat + m.toNat + carryIn s) % 256 := by rw [hr, toNat_adc8_sum, hcin]
  refine ⟨_, rfl, hsum, ⟨rfl, rfl, rfl, rfl, rfl⟩, ?_, pastBytes_advance s n, fun _ => rfl⟩
  rw [← hcarry, ← hoverflow]
  exact hflags

/-- Settles O38: in each form ADC adds to A. -/
theorem adcResult : Obligations.AdcResult := fun s =>
  have adc := addCarry_addsCarry s
  ⟨fun d => adc d 2, fun _ => adc _ 2, fun _ => adc _ 2, fun _ => adc _ 3, fun _ => adc _ 3, fun _ => adc _ 3,
    fun _ => adc _ 2, fun _ => adc _ 2⟩

/-! ### The register operations -/

theorem toNat_inc8 (v : Byte) : (inc8 v).toNat = (v.toNat + 1) % 256 :=
  BitVec.toNat_add v 1#8

theorem toNat_dec8 (v : Byte) : (dec8 v).toNat = (v.toNat + 255) % 256 := by
  rw [dec8, BitVec.toNat_sub, Nat.add_comm]
  rfl

/-- Settles O41: each loads its register with the register one up or one down. -/
theorem incDecResult : Obligations.IncDecResult := fun s =>
  ⟨⟨inc8 s.x, toNat_inc8 s.x, loadX_writesRegs s _ 1⟩, ⟨inc8 s.y, toNat_inc8 s.y, loadY_writesRegs s _ 1⟩,
    ⟨dec8 s.x, toNat_dec8 s.x, loadX_writesRegs s _ 1⟩, ⟨dec8 s.y, toNat_dec8 s.y, loadY_writesRegs s _ 1⟩⟩

/-- Settles O42: TAX loads X with A. -/
theorem taxResult : Obligations.TaxResult := fun s => loadX_writesRegs s s.a 1

/-! ### Control flow -/

/-- Settles O43: the target is the word at the pointer. -/
theorem jmpResult : Obligations.JmpResult := by
  intro s a
  have htarget : (s.mem.readWord a).toNat = byteNat s a.toNat + 256 * byteNat s ((a.toNat + 1) % 65536) := by
    rw [toNat_readWord, byteNat, BitVec.ofNat_toNat, BitVec.setWidth_eq]
    rfl
  exact ⟨_, rfl, htarget, ⟨rfl, rfl, rfl, rfl, rfl⟩, rfl, fun _ => rfl⟩

/-- The branch adder in numbers: the signed displacement, mod 65536. -/
theorem toNat_branchTarget (pc : Addr) (d : Byte) :
    ((branchTarget pc d).toNat : Int) = ((pc.toNat : Int) + d.toInt) % 65536 := by
  have hext : (sext16 d).toInt = d.toInt := toInt_sext16 d
  rw [BitVec.toInt_eq_toNat_cond] at hext
  rw [branchTarget, BitVec.toNat_add]
  split at hext <;> omega

theorem exec_bne (s : State) (d : Byte) :
    exec (.bne d) s
      = .next ((s.advance 2).setPc (if checkFlag .z s.p then s.pc + 2#16 else branchTarget (s.pc + 2#16) d)) := by
  rw [exec_eq_after, after]
  simp only [Instr.mnemonic, Instr.parts, act, branchNotEqual_eq]
  rfl

/-- Settles O44: with Z clear the branch adder, with Z set the next instruction. -/
theorem bneResult : Obligations.BneResult := by
  intro s d
  refine ⟨_, exec_bne s d, fun hz => ?taken, fun hz => ?notTaken, ⟨rfl, rfl, rfl, rfl, rfl⟩, rfl, fun _ => rfl⟩
  case taken =>
    have hz' : checkFlag .z s.p = false := (checkFlag_eq_getLsbD .z s.p).trans hz
    rw [State.setPc_pc, hz', if_neg Bool.false_ne_true, toNat_branchTarget, BitVec.toNat_add,
      show (2#16).toNat = 2 from rfl]
    omega
  case notTaken =>
    have hz' : checkFlag .z s.p = true := (checkFlag_eq_getLsbD .z s.p).trans hz
    rw [hz', if_pos rfl]
    exact pastBytes_advance s 2

/-- Settles O45: HLT clears RUN at the state past it. -/
theorem hltResult : Obligations.HltResult := fun s =>
  ⟨_, rfl, rfl, pastBytes_advance s 1, rfl, rfl, rfl, rfl, rfl, fun _ => rfl⟩

end Sys2Proof.Proofs
end

section
/-! SUPPORT. The addresses of the pointer modes and of the instructions (41_addressing_modes.md R103 to R112), and when a
page is crossed (R114). -/

namespace Sys2Proof.Proofs

open Sys2Proof.Machine Sys2Proof.Safety

/-! ### Pointers -/

theorem byteAt_toNat (s : State) (k : Addr) : (s.byteAt k).toNat = byteNat s k.toNat := by
  rw [byteNat, BitVec.ofNat_toNat, BitVec.setWidth_eq]

/-- A zero-page pointer in numbers: its high byte is one cell on, or with the wrap one cell on within the page. -/
theorem toNat_zpPointer (wrap : Bool) (s : State) (z : Byte) :
    (zpPointer wrap s.mem z).toNat
      = byteNat s z.toNat + 256 * byteNat s (if wrap then (z.toNat + 1) % 256 else z.toNat + 1) := by
  have hz := z.isLt
  have hlow : (s.mem.readByte (zext16 z)).toNat = byteNat s z.toNat := by rw [← toNat_zext16 z]; exact byteAt_toNat s _
  cases wrap with
  | true =>
    have hhigh : (s.mem.readByte (zext16 (z + 1#8))).toNat = byteNat s ((z.toNat + 1) % 256) := by
      have hnext : (zext16 (z + 1#8)).toNat = (z.toNat + 1) % 256 := toNat_zext16_add z 1#8
      rw [← hnext]
      exact byteAt_toNat s _
    rw [zpPointer, if_pos rfl, if_pos rfl, toNat_joinBytes, hlow, hhigh]
  | false =>
    have hnext : (zext16 z + 1#16).toNat = z.toNat + 1 := by
      have hext := toNat_zext16 z
      bv_omega
    have hhigh : (s.mem.readByte (zext16 z + 1#16)).toNat = byteNat s (z.toNat + 1) := by
      rw [← hnext]
      exact byteAt_toNat s _
    rw [zpPointer, if_neg Bool.false_ne_true, if_neg Bool.false_ne_true, Memory.readWord, toNat_joinBytes, hlow, hhigh]

/-- The page of a pointer is its high byte. -/
theorem zpPointer_page (wrap : Bool) (s : State) (z : Byte) :
    (zpPointer wrap s.mem z).toNat / 256 = byteNat s (if wrap then (z.toNat + 1) % 256 else z.toNat + 1) := by
  have hlow : byteNat s z.toNat < 256 := BitVec.isLt _
  rw [toNat_zpPointer]
  omega

/-- Settles O47: the operand's location, the operand word, and the pointer at the 8-bit index. -/
theorem resolverPointerModes : Obligations.ResolverPointerModes := by
  intro c pc0 op s hwrap z t next
  have hindex : (s.byteAt s.pc + s.x).toNat = t := BitVec.toNat_add ..
  refine ⟨rfl, wordRead_map_of_wrap hwrap s.mem s.pc eaIndirect, ⟨_, rfl, ?indirectX, rfl⟩, ⟨_, rfl, ?ea, ?crossed⟩⟩
  case indirectX =>
    rw [← hindex]
    exact toNat_zpPointer c.zpPointerWrap s _
  case ea =>
    rw [eaIndirectY, toNat_indexed_ea, toNat_zpPointer]
  case crossed =>
    have hpage := zpPointer_page c.zpPointerWrap s (s.byteAt s.pc)
    rw [eaIndirectY, indexed_crossed_eq_decide, hpage]

/-- Settles O48: the 8-bit and 16-bit index adders and the pointer word. -/
theorem instructionAddresses : Obligations.InstructionAddresses := by
  refine fun s d a => ⟨toNat_zext16 d, toNat_zext16_add d s.x, toNat_zext16_add d s.y, rfl, toNat_indexed_ea a s.x,
    toNat_indexed_ea a s.y, ?indirectX, ?indirectY⟩
  case indirectX =>
    have hindex : (d + s.x).toNat = (d.toNat + s.x.toNat) % 256 := BitVec.toNat_add ..
    rw [← hindex]
    exact toNat_zpPointer false s (d + s.x)
  case indirectY =>
    have hpointer : (zpPointer chip.zpPointerWrap s.mem d).toNat = wordNat s d.toNat := toNat_zpPointer false s d
    rw [eaIndirectY, toNat_indexed_ea, hpointer]

/-! ### Page crossing -/

theorem indexed_crossed_iff (base : Addr) (index : Byte) :
    (indexed base index).crossed = true ↔ 0xFF < base.toNat % 256 + index.toNat := by
  have hbase := base.isLt
  have hindex := index.isLt
  rw [indexed_crossed_eq_decide, decide_eq_true_iff, toNat_indexed_ea]
  omega

/-- Settles O49: the carry out of the low byte moves the page, the wrap of the top page included. -/
theorem pageCrossing : Obligations.PageCrossing := by
  refine fun base index => ⟨indexed_crossed_iff base index, Bool.eq_false_iff.mpr fun h => ?_⟩
  have hlow := (indexed_crossed_iff base 0).mp h
  rw [show (0 : Byte).toNat = 0 from rfl] at hlow
  omega

end Sys2Proof.Proofs
end

section
/-! SUPPORT. The free run (40_fetch_decode_execute.md R98, R99): the relation, its executor and the divergence, each read
off one step at a time. -/

namespace Sys2Proof.Proofs

open Sys2Proof.Machine Sys2Proof.Safety

/-! ### The executor -/

theorem runFor_of_not_run {s : State} (h : s.run = false) (n : Nat) : runFor n s = some (.halted, s) := by
  cases n <;> simp [runFor, h]

theorem runFor_succ_of_next {s t : State} (h : s.run = true) (hs : step s = .next t) (n : Nat) :
    runFor (n + 1) s = runFor n t := by
  simp [runFor, h, hs]

theorem runFor_succ_of_fault {s : State} {f : Fault} (h : s.run = true) (hs : step s = .fault f) (n : Nat) :
    runFor (n + 1) s = some (.faulted f, s) := by
  simp [runFor, h, hs]

/-- A step completes or faults; it is never refused. -/
theorem step_next_or_fault (s : State) : (∃ t, step s = .next t) ∨ ∃ f, step s = .fault f := by
  rcases step_cases s with ⟨i, _, _, hexec⟩ | ⟨_, _, hfault⟩
  · exact .inl ⟨_, hexec.trans (exec_eq_after i s)⟩
  · exact .inr ⟨_, hfault⟩

theorem runsTo_of_runFor {n : Nat} {s t : State} {e : RunEnd} (h : runFor n s = some (e, t)) : RunsTo s e t := by
  induction n generalizing s with
  | zero =>
    cases hrun : s.run with
    | false =>
      rw [runFor_of_not_run hrun] at h
      cases h
      exact .halted hrun
    | true => simp [runFor, hrun] at h
  | succ n ih =>
    cases hrun : s.run with
    | false =>
      rw [runFor_of_not_run hrun] at h
      cases h
      exact .halted hrun
    | true =>
      rcases step_next_or_fault s with ⟨u, hstep⟩ | ⟨f, hstep⟩
      · rw [runFor_succ_of_next hrun hstep] at h
        exact .stepped hrun hstep (ih h)
      · rw [runFor_succ_of_fault hrun hstep] at h
        cases h
        exact .faulted hrun hstep

theorem runFor_of_runsTo {s t : State} {e : RunEnd} (h : RunsTo s e t) : ∃ n, runFor n s = some (e, t) := by
  induction h with
  | halted hrun => exact ⟨0, runFor_of_not_run hrun 0⟩
  | faulted hrun hstep => exact ⟨1, runFor_succ_of_fault hrun hstep 0⟩
  | stepped hrun hstep _ ih =>
    obtain ⟨n, hn⟩ := ih
    exact ⟨n + 1, (runFor_succ_of_next hrun hstep n).trans hn⟩

/-! ### The relation -/

theorem runsTo_iff_of_next {s t u : State} {e : RunEnd} (h : s.run = true) (hs : step s = .next t) :
    RunsTo s e u ↔ RunsTo t e u := by
  refine ⟨fun hruns => ?_, .stepped h hs⟩
  cases hruns with
  | halted hrun => exact nomatch h.symm.trans hrun
  | faulted _ hf => exact nomatch hs.symm.trans hf
  | stepped _ hs' hr =>
    cases hs.symm.trans hs'
    exact hr

theorem runsTo_iff_of_fault {s t : State} {f : Fault} {e : RunEnd} (h : s.run = true) (hs : step s = .fault f) :
    RunsTo s e t ↔ e = .faulted f ∧ t = s := by
  constructor
  · intro hruns
    cases hruns with
    | halted hrun => exact nomatch h.symm.trans hrun
    | faulted _ hf =>
      cases hs.symm.trans hf
      exact ⟨rfl, rfl⟩
    | stepped _ hs' _ => exact nomatch hs.symm.trans hs'
  · rintro ⟨rfl, rfl⟩
    exact .faulted h hs

theorem runsTo_unique {s t t' : State} {e e' : RunEnd} (h : RunsTo s e t) (h' : RunsTo s e' t') : e = e' ∧ t = t' := by
  induction h with
  | halted hrun =>
    obtain ⟨rfl, rfl⟩ := (runsTo_of_not_run hrun).mp h'
    exact ⟨rfl, rfl⟩
  | faulted hrun hstep =>
    obtain ⟨rfl, rfl⟩ := (runsTo_iff_of_fault hrun hstep).mp h'
    exact ⟨rfl, rfl⟩
  | stepped hrun hstep _ ih => exact ih ((runsTo_iff_of_next hrun hstep).mp h')

/-- Settles O56: the executor follows the relation step by step, and a step has one outcome. -/
theorem runIsDeterministic : Obligations.RunIsDeterministic := fun _ =>
  ⟨fun _ _ => ⟨runFor_of_runsTo, fun ⟨_, h⟩ => runsTo_of_runFor h⟩, fun _ _ _ _ => runsTo_unique⟩

/-! ### Divergence -/

theorem not_runsTo_of_diverges {s t : State} {e : RunEnd} (h : RunsTo s e t) : ¬Diverges s := by
  induction h with
  | halted hrun =>
    rintro ⟨f, rfl, hf⟩
    exact nomatch hrun.symm.trans (hf 0).1
  | faulted hrun hstep =>
    rintro ⟨f, rfl, hf⟩
    exact nomatch hstep.symm.trans (hf 0).2
  | stepped hrun hstep _ ih =>
    rintro ⟨f, rfl, hf⟩
    have hnext : f 1 = _ := Host.Outcome.next.inj ((hf 0).2.symm.trans hstep)
    exact ih ⟨fun n => f (n + 1), hnext, fun n => hf (n + 1)⟩

/-- A run that returns nothing takes a step, to a run that returns nothing. -/
theorem step_of_no_answer {s : State} (h : ¬∃ e t, RunsTo s e t) :
    s.run = true ∧ ∃ t, step s = .next t ∧ ¬∃ e u, RunsTo t e u := by
  have hrun : s.run = true := by
    by_contra hne
    exact h ⟨_, s, .halted (Bool.eq_false_iff.mpr hne)⟩
  rcases step_next_or_fault s with ⟨t, hstep⟩ | ⟨f, hstep⟩
  · exact ⟨hrun, t, hstep, fun ⟨e, u, hr⟩ => h ⟨e, u, .stepped hrun hstep hr⟩⟩
  · exact absurd ⟨_, s, .faulted hrun hstep⟩ h

/-- The states of a run, one step after the other. -/
def runState (s : State) : Nat → State
  | 0 => s
  | n + 1 => stateAfter (runState s n) (step (runState s n))

theorem diverges_of_no_answer {s : State} (h : ¬∃ e t, RunsTo s e t) : Diverges s := by
  have hnone : ∀ n, ¬∃ e t, RunsTo (runState s n) e t := by
    intro n
    induction n with
    | zero => exact h
    | succ n ih =>
      obtain ⟨_, t, hstep, ht⟩ := step_of_no_answer ih
      rw [runState, hstep, stateAfter]
      exact ht
  refine ⟨runState s, rfl, fun n => ?_⟩
  obtain ⟨hrun, t, hstep, _⟩ := step_of_no_answer (hnone n)
  exact ⟨hrun, by rw [runState, hstep, stateAfter]⟩

/-- Settles O57: an answer ends every sequence of steps, and where there is none each step leads on. -/
theorem runEndsOrDiverges : Obligations.RunEndsOrDiverges := fun _ =>
  ⟨fun ⟨_, _, h⟩ => not_runsTo_of_diverges h, fun h => by_contra fun hnone => h (diverges_of_no_answer hnone)⟩

/-! ### How a run ends -/

theorem reaches_of_step {s t u : State} (hs : step s = .next t) (h : Reaches t u) : Reaches s u := by
  induction h with
  | refl => exact .tail (.refl s) hs
  | tail _ hs' ih => exact .tail ih hs'

/-- What a run that was started ends with: an HLT, or an unsupported opcode at the PC it leaves. -/
def EndsAsStarted (s t : State) : RunEnd → Prop
  | .halted => ∃ u rest, Reaches s u ∧ u.run = true ∧ decode (fetchBytes u) = .ok (.hlt, rest) ∧ step u = .next t
  | .faulted f => Reaches s t ∧ t.run = true ∧ f = .unsupportedOpcode t.pc (t.byteAt t.pc)

theorem endsAsStarted_of_step {s t u : State} {e : RunEnd} (hs : step s = .next t) (h : EndsAsStarted t u e) :
    EndsAsStarted s u e := by
  cases e with
  | halted =>
    obtain ⟨v, rest, hreach, hv⟩ := h
    exact ⟨v, rest, reaches_of_step hs hreach, hv⟩
  | faulted f =>
    obtain ⟨hreach, hu⟩ := h
    exact ⟨reaches_of_step hs hreach, hu⟩

/-- A step that clears RUN runs an HLT. -/
theorem decode_hlt_of_step_clears_run {s t : State} (hs : s.run = true) (ht : t.run = false) (h : step s = .next t) :
    ∃ rest, decode (fetchBytes s) = .ok (.hlt, rest) := by
  obtain ⟨i, rest, hdecode, rfl⟩ := step_eq_next h
  by_cases hi : i = .hlt
  · exact ⟨rest, hi ▸ hdecode⟩
  · exact nomatch ht.symm.trans ((after_run hi s).trans hs)

theorem endsAsStarted_of_runsTo {s t : State} {e : RunEnd} (h : RunsTo s e t) (hs : s.run = true) :
    EndsAsStarted s t e := by
  induction h with
  | halted hrun => exact nomatch hs.symm.trans hrun
  | faulted hrun hstep => exact ⟨.refl _, hrun, fault_of_step hstep⟩
  | @stepped s t u e hrun hstep hr ih =>
    cases ht : t.run with
    | true => exact endsAsStarted_of_step hstep (ih ht)
    | false =>
      obtain ⟨rfl, rfl⟩ := (runsTo_of_not_run ht).mp hr
      obtain ⟨rest, hhlt⟩ := decode_hlt_of_step_clears_run hrun ht hstep
      exact ⟨s, rest, .refl s, hrun, hhlt, hstep⟩

/-- Settles O58: the last step before RUN is found 0 is an HLT, and only an unsupported opcode faults. -/
theorem runEndsByHltOrFault : Obligations.RunEndsByHltOrFault := by
  intro s t e h hs
  have hend := endsAsStarted_of_runsTo h hs
  cases e with
  | halted => exact ⟨fun _ => hend, fun _ he => nomatch he⟩
  | faulted f => exact ⟨fun he => (nomatch he), fun g he => by cases he; exact hend⟩

/-- A branch by -2 leads back to itself. -/
theorem branchTarget_self (pc : Addr) : branchTarget (pc + 2#16) 0xFE#8 = pc := by
  have hext : sext16 0xFE#8 = 0xFFFE#16 := rfl
  rw [branchTarget, hext]
  bv_omega

/-- Settles O59: the step leads from the state to itself. -/
theorem branchToSelfDiverges : Obligations.BranchToSelfDiverges := by
  intro s hrun hz hprogram
  have hz' : checkFlag .z s.p = false := (checkFlag_eq_getLsbD .z s.p).trans hz
  have hself : step s = .next s := by
    rw [step_of_programAt hprogram, exec_bne, hz', if_neg Bool.false_ne_true]
    exact congrArg (fun pc => Host.Outcome.next (s.setPc pc)) (branchTarget_self s.pc)
  exact ⟨fun _ => s, rfl, fun _ => ⟨hrun, hself⟩⟩

/-! ### Fetching what was written -/

theorem fetchBytes_eq_bytesFrom {s : State} {read : Addr → Byte} (h : ∀ k, s.byteAt k = read k) :
    fetchBytes s = bytesFrom read s.pc := by
  rw [fetchBytes_eq, funext h]

theorem byteAt_afterLoad {s t : State} (hwf : s.mem.wf = true) {address : Addr} {bytes : List Byte}
    (h : load address bytes s = .next t) (k : Addr) : t.byteAt k = afterLoad s address bytes k := by
  have hle := (load_eq_next h).1
  unfold afterLoad
  split
  · next hk =>
    by_cases hin : k.toNat - address.toNat < bytes.length
    · have haddr : address + BitVec.ofNat 16 (k.toNat - address.toNat) = k := by
        refine BitVec.eq_of_toNat_eq ?_
        rw [toNat_load_address hle hin]
        omega
      have hbyte := byteAt_load hwf h hin
      rw [haddr] at hbyte
      rw [hbyte, List.getD_eq_getElem _ _ hin]
    · rw [byteAt_load_outside hwf h (.inr (by omega)), List.getD_eq_default _ _ (by omega)]
  · next hk => exact byteAt_load_outside hwf h (.inl (Nat.lt_of_not_le hk))

/-- Settles O60: the store and the load put their bytes where the next fetch reads them. -/
theorem selfModifyingStoreIsFetched : Obligations.SelfModifyingStoreIsFetched := by
  refine ⟨storedAt_isSome, fun s i ea v hwf hstored hprogram => ?store, fun s t address bytes hwf h => ?load⟩
  case store =>
    have hexec := exec_storedAt hstored
    have hbytes (k : Addr) : (s.mem.writeByte ea v).readByte k = afterStore s ea v k := readByte_writeByte hwf ea k v
    set t := (s.advance (encode i).length).setMem (s.mem.writeByte ea v)
    have hfetch : fetchBytes t = bytesFrom (afterStore s ea v) t.pc := fetchBytes_eq_bytesFrom hbytes
    exact ⟨t, (step_of_programAt hprogram).trans hexec, hexec, pastBytes_advance s _, hfetch,
      fun j rest hdecode => step_of_decode (hfetch ▸ hdecode)⟩
  case load =>
    have hpc : t.pc = s.pc := by
      obtain ⟨-, rfl⟩ := load_eq_next h
      rfl
    have hfetch : fetchBytes t = bytesFrom (afterLoad s address bytes) s.pc :=
      hpc ▸ fetchBytes_eq_bytesFrom (byteAt_afterLoad hwf h)
    exact ⟨hpc, hfetch, fun j rest hdecode => step_of_decode (hfetch ▸ hdecode)⟩

end Sys2Proof.Proofs
end

section
/-! SUPPORT. The fetch-decode-execute machine (40_fetch_decode_execute.md R90 to R94) row by row: what its parts answer,
as the handlers of `exec` with the extra cycles of 70_reset_and_hazards.md R210. -/

namespace Sys2Proof.Proofs

open Sys2Proof.Machine Sys2Proof.Safety

/-! ### From a row to the report -/

theorem implementedRow_of_mem {c : Config} {op : Byte} (h : op ∈ c.implementedOpcodes) :
    implementedRow c op = decodeOpcode op :=
  if_pos (List.contains_iff_mem.mpr h)

theorem implementedRow_of_not_mem {c : Config} {op : Byte} (h : op ∉ c.implementedOpcodes) :
    implementedRow c op = none :=
  if_neg (mt List.contains_iff_mem.mp h)

/-- The default set takes no row away. -/
theorem implementedRow_chip (op : Byte) : implementedRow chip op = decodeOpcode op := by
  by_cases h : op ∈ Config.tableOpcodes
  · exact implementedRow_of_mem h
  · rw [implementedRow_of_not_mem h, eq_comm, Option.eq_none_iff_forall_ne_some]
    exact fun row hrow => h ((mem_tableOpcodes_iff op).mpr ⟨row, hrow⟩)

/-- The report of a step whose row has the base count `base`. -/
def reportOf (base : Nat) : Except FsmFault (State × Nat) → StepReport
  | .ok (t, extra) => .ok (base + extra) t
  | .error f => .fault f

theorem fsmStep_of_row {c : Config} {s : State} {row : OpcodeRow} (h : implementedRow c (s.byteAt s.pc) = some row) :
    fsmStep c s = reportOf row.base (resolveAndHandle c row s.pc (s.byteAt s.pc) (s.advance 1)) := by
  simp only [fsmStep, h]
  cases resolveAndHandle c row s.pc (s.byteAt s.pc) (s.advance 1) <;> rfl

theorem fsmStep_of_no_row {c : Config} {s : State} (h : implementedRow c (s.byteAt s.pc) = none) :
    fsmStep c s = .fault (.core (.unsupportedOpcode s.pc (s.byteAt s.pc))) := by
  simp only [fsmStep, h]

theorem reportOf_eq_fault {base : Nat} {r : Except FsmFault (State × Nat)} {f : FsmFault} :
    reportOf base r = .fault f ↔ r = .error f := by
  cases r <;> simp [reportOf]

theorem reportOf_eq_ok {base n : Nat} {r : Except FsmFault (State × Nat)} {t : State} :
    reportOf base r = .ok n t ↔ ∃ extra, r = .ok (t, extra) ∧ n = base + extra := by
  cases r with
  | error f => simp [reportOf]
  | ok p =>
    obtain ⟨u, extra⟩ := p
    simp only [reportOf, StepReport.ok.injEq, Except.ok.injEq, Prod.mk.injEq]
    constructor
    · rintro ⟨rfl, rfl⟩
      exact ⟨extra, ⟨rfl, rfl⟩, rfl⟩
    · rintro ⟨_, ⟨rfl, rfl⟩, rfl⟩
      exact ⟨rfl, rfl⟩

/-! ### The handlers -/

/-- The extra cycles of a handler (R210). -/
def extraCycles (m : Mnemonic) (r : Resolved) (s : State) : Nat :=
  match m with
  | .lda | .ldx | .ldy | .adc => pageCost r
  | .bne => branchCost (s.byteAt r.ea) s
  | _ => 0

/-- The most extra cycles of a mnemonic. -/
def maxExtra : Mnemonic → Nat
  | .lda | .ldx | .ldy | .adc => 1
  | .bne => 2
  | _ => 0

theorem pageCost_le (r : Resolved) : pageCost r ≤ 1 := by
  unfold pageCost
  split <;> decide

theorem branchCost_le (d : Byte) (s : State) : branchCost d s ≤ 2 := by
  unfold branchCost
  split
  · decide
  · split <;> decide

theorem extraCycles_le (m : Mnemonic) (r : Resolved) (s : State) : extraCycles m r s ≤ maxExtra m := by
  cases m with
  | lda | ldx | ldy | adc => exact pageCost_le r
  | bne => exact branchCost_le _ s
  | _ => exact Nat.le_refl 0

/-- An Implied handler looks at neither an address nor a byte. -/
theorem handle_none {m : Mnemonic} (h : m ∈ [Mnemonic.inx, .iny, .dex, .dey, .tax, .hlt]) (c : Config) (pc0 : Addr)
    (op : Byte) (s : State) (ea : Addr) (v : Byte) : handle c m pc0 op none s = .ok (act m ea v s, 0) := by
  cases m <;> simp at h <;> rfl

theorem handle_some {m : Mnemonic} (h : m ≠ .jmp) (c : Config) (pc0 : Addr) (op : Byte) (r : Resolved) (s : State) :
    handle c m pc0 op (some r) s = .ok (act m r.ea (s.byteAt r.ea) s, extraCycles m r s) := by
  cases m with
  | jmp => exact absurd rfl h
  | _ => rfl

theorem handle_jmp (c : Config) (pc0 : Addr) (op : Byte) (r : Resolved) (s : State) :
    handle c .jmp pc0 op (some r) s = (jumpRead c r.ea s).map fun t => (t, 0) := rfl

/-- At the parameters of `chip` a jump pointer is a plain word read. -/
theorem handle_chip (m : Mnemonic) (pc0 : Addr) (op : Byte) (r : Resolved) (s : State) :
    handle chip m pc0 op (some r) s = .ok (act m r.ea (s.byteAt r.ea) s, extraCycles m r s) := by
  by_cases h : m = .jmp
  · subst h
    rfl
  · exact handle_some h chip pc0 op r s

theorem handle_needs_address {m : Mnemonic} (h : m ∉ [Mnemonic.inx, .iny, .dex, .dey, .tax, .hlt]) (c : Config)
    (pc0 : Addr) (op : Byte) (s : State) :
    handle c m pc0 op none s = .error (.core (.invalidAddressingRequest pc0 op)) := by
  cases m <;> simp at h <;> rfl

theorem handle_ok_extra_le {c : Config} {m : Mnemonic} {pc0 : Addr} {op : Byte} {r : Option Resolved} {s t : State}
    {extra : Nat} (h : handle c m pc0 op r s = .ok (t, extra)) : extra ≤ maxExtra m := by
  cases r with
  | none =>
    by_cases hm : m ∈ [Mnemonic.inx, .iny, .dex, .dey, .tax, .hlt]
    · rw [handle_none hm c pc0 op s 0 0] at h
      cases h
      exact Nat.zero_le _
    · rw [handle_needs_address hm] at h
      cases h
  | some r =>
    by_cases hm : m = .jmp
    · subst hm
      rw [handle_jmp] at h
      cases hj : jumpRead c r.ea s with
      | error f => rw [hj] at h; cases h
      | ok u => rw [hj] at h; cases h; exact Nat.zero_le _
    · rw [handle_some hm] at h
      cases h
      exact extraCycles_le m r s

/-! ### Resolving and handling -/

theorem resolveAndHandle_implied {row : OpcodeRow} (h : row.mode = .implied) (c : Config) (pc0 : Addr) (op : Byte)
    (s : State) : resolveAndHandle c row pc0 op s = handle c row.mnemonic pc0 op none s :=
  if_pos h

theorem resolveAndHandle_of_resolve {c : Config} {row : OpcodeRow} {pc0 : Addr} {op : Byte} {s : State} {r : Resolved}
    (h : row.mode ≠ .implied) (hr : resolve c row.mode pc0 op s = .ok r) :
    resolveAndHandle c row pc0 op s = handle c row.mnemonic pc0 op (some r) (s.advance row.mode.size) := by
  rw [resolveAndHandle, if_neg h, hr]

theorem resolveAndHandle_of_resolve_error {c : Config} {row : OpcodeRow} {pc0 : Addr} {op : Byte} {s : State}
    {f : FsmFault} (h : row.mode ≠ .implied) (hr : resolve c row.mode pc0 op s = .error f) :
    resolveAndHandle c row pc0 op s = .error f := by
  rw [resolveAndHandle, if_neg h, hr]

theorem resolveAndHandle_ok_extra_le {c : Config} {row : OpcodeRow} {pc0 : Addr} {op : Byte} {s t : State} {extra : Nat}
    (h : resolveAndHandle c row pc0 op s = .ok (t, extra)) : extra ≤ maxExtra row.mnemonic := by
  by_cases hmode : row.mode = .implied
  · rw [resolveAndHandle_implied hmode] at h
    exact handle_ok_extra_le h
  · cases hr : resolve c row.mode pc0 op s with
    | error f =>
      rw [resolveAndHandle_of_resolve_error hmode hr] at h
      cases h
    | ok r =>
      rw [resolveAndHandle_of_resolve hmode hr] at h
      exact handle_ok_extra_le h

/-! ### At the parameters of `chip`: the step -/

/-- The operand that an instruction decoded at PC carries stands in the bytes after PC. -/
theorem operand_bytes_of_decode {s : State} {i : Instr} {rest : List Byte} (h : decode (fetchBytes s) = .ok (i, rest)) :
    i.operand.bytes = [s.byteAt (s.pc + 1#16), s.byteAt (s.pc + 2#16)].take i.mode.size := by
  obtain ⟨hbytes, -⟩ := encodeOfDecode _ _ _ h
  have htail : [s.byteAt (s.pc + 1#16), s.byteAt (s.pc + 2#16)] = i.operand.bytes ++ rest := (List.cons.inj hbytes).2
  rw [htail, ← operand_bytes_length, List.take_left]

theorem byteOf_operand {s : State} {i : Instr} {rest : List Byte} (h : decode (fetchBytes s) = .ok (i, rest))
    (hsize : i.mode.size = 1) : byteOf i.operand = s.byteAt (s.pc + 1#16) := by
  have hbytes := operand_bytes_of_decode h
  rw [hsize] at hbytes
  cases ho : i.operand with
  | byte d => rw [ho] at hbytes; exact (List.cons.inj hbytes).1
  | none | word a => rw [ho] at hbytes; simp [Operand.bytes] at hbytes

theorem wordOf_operand {s : State} {i : Instr} {rest : List Byte} (h : decode (fetchBytes s) = .ok (i, rest))
    (hsize : i.mode.size = 2) : wordOf i.operand = s.mem.readWord (s.pc + 1#16) := by
  have hbytes := operand_bytes_of_decode h
  rw [hsize] at hbytes
  cases ho : i.operand with
  | word a =>
    rw [ho] at hbytes
    simp only [Operand.bytes, List.take_succ_cons, List.take_zero, List.cons.injEq, and_true] at hbytes
    rw [readWord_operand, ← hbytes.1, ← hbytes.2, joinBytes_split, wordOf]
  | none | byte d => rw [ho] at hbytes; simp [Operand.bytes] at hbytes

/-- The resolver computes from the bytes after PC the address that a meaning computes from its operand (log 1). -/
theorem resolve_chip {mode : Mode} {o : Operand} {s : State} (hmode : mode ≠ .implied)
    (hbyte : mode.size = 1 → byteOf o = s.byteAt (s.pc + 1#16))
    (hword : mode.size = 2 → wordOf o = s.mem.readWord (s.pc + 1#16)) (pc0 : Addr) (op : Byte) :
    ∃ r, resolve chip mode pc0 op (s.advance 1) = .ok r ∧ r.ea = modeAddr mode o s
      ∧ s.byteAt r.ea = modeByte mode o s := by
  cases mode with
  | implied => exact absurd rfl hmode
  | immediate | relative => exact ⟨_, rfl, rfl, (hbyte rfl).symm⟩
  | zeroPage | zeroPageX | zeroPageY | indirectX | indirectY =>
    refine ⟨_, rfl, ?_, ?_⟩ <;> simp only [modeByte, modeAddr, hbyte rfl] <;> rfl
  | absolute | absoluteX | absoluteY | indirect =>
    refine ⟨_, rfl, ?_, ?_⟩ <;> simp only [modeByte, modeAddr, hword rfl] <;> rfl

/-- A row at PC: the machine makes the transition of the decoded instruction, with no extra cycle in Implied mode and
the handler's otherwise. -/
theorem resolveAndHandle_chip {s : State} {row : OpcodeRow} (hrow : decodeOpcode (s.byteAt s.pc) = some row) :
    ∃ i rest, decode (fetchBytes s) = .ok (i, rest) ∧ i.mnemonic = row.mnemonic ∧ i.mode = row.mode
      ∧ ((row.mode = .implied
          ∧ resolveAndHandle chip row s.pc (s.byteAt s.pc) (s.advance 1) = .ok (after i s, 0))
        ∨ ∃ r, row.mode ≠ .implied ∧ resolve chip row.mode s.pc (s.byteAt s.pc) (s.advance 1) = .ok r
          ∧ s.byteAt r.ea = modeByte i.mode i.operand s
          ∧ resolveAndHandle chip row s.pc (s.byteAt s.pc) (s.advance 1)
            = .ok (after i s, extraCycles row.mnemonic r (s.advance i.length))) := by
  obtain ⟨i, rest, hdecode, hm, hmode, -⟩ := decode_of_row hrow (s.byteAt (s.pc + 1#16)) (s.byteAt (s.pc + 2#16))
  refine ⟨i, rest, hdecode, hm, hmode, ?_⟩
  by_cases himplied : row.mode = .implied
  · have hlen : i.length = 1 := by rw [Instr.length, hmode, himplied]; rfl
    refine .inl ⟨himplied, ?_⟩
    rw [resolveAndHandle_implied himplied, after, hlen, hm]
    exact handle_none ((implied_rows (decodeOpcode_some hrow).1).mp himplied) ..
  · obtain ⟨r, hresolve, hea, hbyte⟩ := resolve_chip (hmode ▸ himplied) (byteOf_operand hdecode)
      (wordOf_operand hdecode) s.pc (s.byteAt s.pc)
    rw [hmode] at hresolve
    refine .inr ⟨r, himplied, hresolve, hbyte, ?_⟩
    rw [resolveAndHandle_of_resolve himplied hresolve, handle_chip, State.advance_advance, after, ← hea, ← hbyte, hm,
      Instr.length, hmode]
    rfl

/-- The machine and the step agree, at a row and where there is none. -/
theorem step_fsmStep_cases (s : State) :
    (∃ t n, step s = .next t ∧ fsmStep chip s = .ok n t)
      ∨ ∃ f, step s = .fault f ∧ fsmStep chip s = .fault (.core f) := by
  have himplemented := implementedRow_chip (s.byteAt s.pc)
  cases hrow : decodeOpcode (s.byteAt s.pc) with
  | none =>
    exact .inr ⟨_, step_of_decode_error (decode_of_no_row hrow _), fsmStep_of_no_row (himplemented.trans hrow)⟩
  | some row =>
    obtain ⟨i, rest, hdecode, -, -, hcases⟩ := resolveAndHandle_chip hrow
    have hstep : step s = .next (after i s) := (step_of_decode hdecode).trans (exec_eq_after i s)
    have hfsm := fsmStep_of_row (himplemented.trans hrow)
    rcases hcases with ⟨-, hok⟩ | ⟨r, -, -, -, hok⟩ <;> rw [hok] at hfsm <;> exact .inl ⟨_, _, hstep, hfsm⟩

/-- Settles O8: at each byte both give the decoded instruction's next state, or both the same fault. -/
theorem stepIsTheFsmStep : Obligations.StepIsTheFsmStep := by
  intro s
  rcases step_fsmStep_cases s with ⟨t, n, hstep, hfsm⟩ | ⟨f, hstep, hfsm⟩
  · simp [hstep, hfsm]
  · simp [hstep, hfsm]

/-- Settles O9: a fault of the machine is R170's or the bounds fault, and the mismatched calls are the two of R171. -/
theorem invalidAddressingUnreachable : Obligations.InvalidAddressingUnreachable := by
  refine ⟨fun c s pc op h => ?_, fun _ _ _ _ => rfl, fun c m pc op s hm => handle_needs_address hm c pc op s⟩
  rcases fsmStep_fault h with ⟨_, hf⟩ | ⟨_, hf⟩ <;> cases hf

/-- Settles O11: the set only selects the row. -/
theorem narrowerOpcodeSetOnlyFaults : Obligations.NarrowerOpcodeSetOnlyFaults := by
  refine fun c s => ⟨fun h => fsmStep_of_no_row (implementedRow_of_not_mem h), fun h htable => ?_⟩
  have htable' : implementedRow { c with implementedOpcodes := Config.tableOpcodes } (s.byteAt s.pc)
      = decodeOpcode (s.byteAt s.pc) := implementedRow_of_mem htable
  cases hrow : decodeOpcode (s.byteAt s.pc) with
  | none => rw [fsmStep_of_no_row ((implementedRow_of_mem h).trans hrow), fsmStep_of_no_row (htable'.trans hrow)]
  | some row =>
    rw [fsmStep_of_row ((implementedRow_of_mem h).trans hrow), fsmStep_of_row (htable'.trans hrow)]
    rfl

/-! ### Cycles -/

/-- Settles O13: the base counts leave room for the most extra cycles of their mnemonics. -/
theorem cycleCountBounds : Obligations.CycleCountBounds := by
  intro c s t n h
  have rows : ∀ r ∈ opcodeTable, 2 ≤ r.base ∧ r.base + maxExtra r.mnemonic ≤ 7 := by decide
  cases hrow : implementedRow c (s.byteAt s.pc) with
  | none => rw [fsmStep_of_no_row hrow] at h; cases h
  | some row =>
    rw [fsmStep_of_row hrow, reportOf_eq_ok] at h
    obtain ⟨extra, hok, rfl⟩ := h
    obtain ⟨hlow, hhigh⟩ := rows row (decodeOpcode_some (implementedRow_some hrow).2).1
    have hextra := resolveAndHandle_ok_extra_le hok
    omega

/-- Only the three indexed modes with a 16-bit adder can cross a page (41_addressing_modes.md R114). -/
theorem mode_of_crossed {mode : Mode} {pc0 : Addr} {op : Byte} {s : State} {r : Resolved}
    (h : resolve chip mode pc0 op s = .ok r) (hcrossed : r.crossed = true) :
    mode ∈ [Mode.absoluteX, .absoluteY, .indirectY] := by
  cases mode with
  | absoluteX | absoluteY | indirectY => decide
  | _ => cases h <;> cases hcrossed

/-- The branch cost as the page of PC before and after (46_control_flow.md R161). -/
theorem branchCost_eq (d : Byte) (s : State) :
    branchCost d s = if s.p.getLsbD 1 then 0
      else if (branchNotEqual d s).pc.toNat / 256 = s.pc.toNat / 256 then 1 else 2 := by
  have hz : checkFlag .z s.p = s.p.getLsbD 1 := checkFlag_eq_getLsbD .z s.p
  rw [branchCost, branchNotEqual, hz]
  cases s.p.getLsbD 1 with
  | true => rfl
  | false =>
    rw [if_neg Bool.false_ne_true, if_neg Bool.false_ne_true, if_neg Bool.false_ne_true, State.setPc_pc]
    simp only [← toNat_hiByte, BitVec.toNat_inj]
    by_cases hpage : hiByte (branchTarget s.pc d) = hiByte s.pc <;> simp [hpage]

/-- Settles O14: the extra cycles of the handler, with the resolver's page crossing and the branch's pages. -/
theorem cycleCounts : Obligations.CycleCounts := by
  intro s t n row h hrow
  rw [fsmStep_of_row ((implementedRow_chip _).trans hrow), reportOf_eq_ok] at h
  obtain ⟨extra, hok, rfl⟩ := h
  obtain ⟨i, rest, -, hm, hmode, ⟨himplied, hok'⟩ | ⟨r, -, hresolve, hbyte, hok'⟩⟩ := resolveAndHandle_chip hrow
  · have hnone := (implied_rows (decodeOpcode_some hrow).1).mp himplied
    cases hok.symm.trans hok'
    refine ⟨fun hload => ?_, fun hbne => ?_, fun _ => rfl⟩
    · revert hnone hload
      cases row.mnemonic <;> simp
    · rw [hbne] at hnone
      exact absurd hnone (by decide)
  · cases hok.symm.trans hok'
    refine ⟨fun hload => ⟨r, hresolve, ?load, mode_of_crossed hresolve⟩, fun hbne => ?bne, fun hother => ?other⟩
    case load =>
      revert hload
      cases row.mnemonic <;> simp [extraCycles, pageCost]
    case bne =>
      have hlen : i.length = 2 := by
        have hmem := mode_mem_modes i
        rw [hm, hbne] at hmem
        rw [Instr.length, List.mem_singleton.mp hmem]
        rfl
      have hafter : after i s = branchNotEqual (modeByte i.mode i.operand s) (s.advance 2) := by
        rw [after, hm, hbne, hlen, act]
      rw [hafter, hbne, hlen, extraCycles, State.advance_byteAt, hbyte, branchCost_eq]
      rfl
    case other =>
      revert hother
      cases row.mnemonic <;> simp [extraCycles]

end Sys2Proof.Proofs
end

section
/-! SUPPORT. Words at the top of memory (92_eei_decisions.md D6; log 6, 27) and the jump through a pointer
(46_control_flow.md R160), under every value of the parameters. -/

namespace Sys2Proof.Proofs

open Sys2Proof.Machine Sys2Proof.Safety

/-! ### Word reads -/

theorem wordRead_error_iff {c : Config} {m : Memory} {addr : Addr} {f : FsmFault} :
    wordRead c m addr = .error f ↔ c.wordWrapAtTop = .fault ∧ addr = 0xFFFF ∧ f = .wordAtTop 0xFFFF := by
  refine ⟨wordRead_error, ?_⟩
  rintro ⟨hfault, rfl, rfl⟩
  exact if_pos ⟨hfault, rfl⟩

theorem wordRead_of_not_top {c : Config} {addr : Addr} (h : c.wordWrapAtTop = .wrap ∨ addr ≠ 0xFFFF) (m : Memory) :
    wordRead c m addr = .ok (m.readWord addr) := by
  refine if_neg ?_
  rintro ⟨hfault, htop⟩
  rcases h with hwrap | hne
  · exact nomatch hfault.symm.trans hwrap
  · exact hne htop

theorem wordRead_ok {c : Config} {m : Memory} {addr a : Addr} (h : wordRead c m addr = .ok a) :
    a = m.readWord addr := by
  unfold wordRead at h
  split at h
  · cases h
  · exact (Except.ok.inj h).symm

/-- A jump pointer is a word read unless it is kept within its page. -/
theorem jumpRead_error_iff {c : Config} {ea : Addr} {s : State} {f : FsmFault} :
    jumpRead c ea s = .error f ↔ c.jmpIndPageWrap = false ∧ wordRead c s.mem ea = .error f := by
  unfold jumpRead
  cases c.jmpIndPageWrap with
  | true => simp
  | false => cases wordRead c s.mem ea <;> simp [Except.map]

theorem jumpRead_of_not_top {c : Config} {ea : Addr}
    (h : c.wordWrapAtTop = .wrap ∨ c.jmpIndPageWrap = true ∨ ea ≠ 0xFFFF) (s : State) :
    jumpRead c ea s = .ok (jumpThrough c ea s) := by
  unfold jumpRead jumpThrough
  cases hj : c.jmpIndPageWrap with
  | true => rfl
  | false =>
    have hread : wordRead c s.mem ea = .ok (s.mem.readWord ea) :=
      wordRead_of_not_top (h.imp_right fun h => h.resolve_left (by simp [hj])) s.mem
    rw [hread]
    rfl

/-! ### The rows -/

/-- JMP has the one mode Indirect (R77). -/
theorem mode_of_jmp {row : OpcodeRow} (hrow : row ∈ opcodeTable) (h : row.mnemonic = .jmp) : row.mode = .indirect := by
  have hmem := row_mode_mem_modes hrow
  rw [h] at hmem
  exact List.mem_singleton.mp hmem

/-- JMP reads its operand word, and then its target through it. -/
theorem resolveAndHandle_jmp {row : OpcodeRow} (hrow : row ∈ opcodeTable) (h : row.mnemonic = .jmp) (c : Config)
    (pc0 : Addr) (op : Byte) (s : State) :
    resolveAndHandle c row pc0 op s
      = (wordRead c s.mem s.pc).bind fun a => (jumpRead c a (s.advance 2)).map fun t => (t, 0) := by
  have hmode := mode_of_jmp hrow h
  simp only [resolveAndHandle, hmode, h, resolve]
  cases wordRead c s.mem s.pc <;> rfl

/-- A mode with two operand bytes applies its address function to the operand word. -/
theorem resolve_of_size_two {mode : Mode} (h : mode.size = 2) (c : Config) (pc0 : Addr) (op : Byte) (s : State) :
    ∃ g, resolve c mode pc0 op s = (wordRead c s.mem s.pc).map g := by
  cases mode with
  | absolute | absoluteX | absoluteY | indirect => exact ⟨_, rfl⟩
  | _ => exact nomatch h

theorem resolve_of_size_one {mode : Mode} (h : mode.size = 1) (c : Config) (pc0 : Addr) (op : Byte) (s : State) :
    ∃ r, resolve c mode pc0 op s = .ok r := by
  cases mode with
  | implied | absolute | absoluteX | absoluteY | indirect => exact nomatch h
  | _ => exact ⟨_, rfl⟩

theorem size_eq_zero_iff (mode : Mode) : mode.size = 0 ↔ mode = .implied := by
  cases mode <;> decide

/-- Apart from JMP, a row reads one word, its operand, where its mode has two bytes, and none otherwise. -/
theorem resolveAndHandle_error_of_ne_jmp {row : OpcodeRow} (hrow : row ∈ opcodeTable) (h : row.mnemonic ≠ .jmp)
    {c : Config} {pc0 : Addr} {op : Byte} {s : State} {f : FsmFault} :
    resolveAndHandle c row pc0 op s = .error f ↔ row.mode.size = 2 ∧ wordRead c s.mem s.pc = .error f := by
  have hsize : row.mode.size = 0 ∨ row.mode.size = 1 ∨ row.mode.size = 2 := by have := mode_size_le row.mode; omega
  rcases hsize with h0 | h1 | h2
  · have himplied := (size_eq_zero_iff row.mode).mp h0
    rw [resolveAndHandle_implied himplied, handle_none ((implied_rows hrow).mp himplied) c pc0 op s 0 0, h0]
    simp
  · have hmode : row.mode ≠ .implied := fun himplied => by rw [himplied] at h1; exact nomatch h1
    obtain ⟨r, hr⟩ := resolve_of_size_one h1 c pc0 op s
    rw [resolveAndHandle_of_resolve hmode hr, handle_some h, h1]
    simp
  · have hmode : row.mode ≠ .implied := fun himplied => by rw [himplied] at h2; exact nomatch h2
    obtain ⟨g, hg⟩ := resolve_of_size_two h2 c pc0 op s
    cases hw : wordRead c s.mem s.pc with
    | error e =>
      rw [hw] at hg
      rw [resolveAndHandle_of_resolve_error hmode hg]
      simp [h2]
    | ok a =>
      rw [hw] at hg
      rw [resolveAndHandle_of_resolve hmode hg, handle_some h]
      simp

/-- JMP reads two words: its operand, and the target where the pointer is not kept within its page. -/
theorem resolveAndHandle_error_of_jmp {row : OpcodeRow} (hrow : row ∈ opcodeTable) (h : row.mnemonic = .jmp)
    {c : Config} {pc0 : Addr} {op : Byte} {s : State} {f : FsmFault} :
    resolveAndHandle c row pc0 op s = .error f ↔
      wordRead c s.mem s.pc = .error f
        ∨ (c.jmpIndPageWrap = false ∧ wordRead c s.mem s.pc = .ok (s.mem.readWord s.pc)
          ∧ wordRead c s.mem (s.mem.readWord s.pc) = .error f) := by
  rw [resolveAndHandle_jmp hrow h]
  cases hw : wordRead c s.mem s.pc with
  | error e => simp [Except.bind]
  | ok a =>
    obtain rfl := wordRead_ok hw
    have hjump := jumpRead_error_iff (c := c) (ea := s.mem.readWord s.pc) (s := s.advance 2) (f := f)
    rw [State.advance_mem] at hjump
    rw [Except.bind]
    cases hj : jumpRead c (s.mem.readWord s.pc) (s.advance 2) <;> rw [hj] at hjump <;> simpa [Except.map] using hjump

/-! ### The step -/

/-- The operand bytes of an opcode at 0xFFFE start at the top. -/
theorem operand_at_top (pc : Addr) : pc + 1#16 = 0xFFFF ↔ pc = 0xFFFE := by
  constructor <;> intro h <;> bv_omega

/-- Which rows end in the bounds fault, from the state past the opcode byte. -/
theorem resolveAndHandle_error_iff {row : OpcodeRow} (hrow : row ∈ opcodeTable) {c : Config} {pc0 : Addr} {op : Byte}
    {s : State} {f : FsmFault} :
    resolveAndHandle c row pc0 op (s.advance 1) = .error f ↔
      c.wordWrapAtTop = .fault ∧ f = .wordAtTop 0xFFFF
        ∧ ((row.mode.size = 2 ∧ s.pc = 0xFFFE)
          ∨ (row.mnemonic = .jmp ∧ c.jmpIndPageWrap = false ∧ s.mem.readWord (s.pc + 1#16) = 0xFFFF)) := by
  have hpc : (s.advance 1).pc = s.pc + 1#16 := rfl
  by_cases hm : row.mnemonic = .jmp
  · have hsize : row.mode.size = 2 := by rw [mode_of_jmp hrow hm]; rfl
    rw [resolveAndHandle_error_of_jmp hrow hm, hpc, State.advance_mem]
    by_cases htop : c.wordWrapAtTop = .fault ∧ s.pc = 0xFFFE
    · have hread : wordRead c s.mem (s.pc + 1#16) = .error (.wordAtTop 0xFFFF) :=
        wordRead_error_iff.mpr ⟨htop.1, (operand_at_top s.pc).mpr htop.2, rfl⟩
      rw [hread]
      constructor
      · rintro (h | ⟨_, h, _⟩) <;> cases h
        exact ⟨htop.1, rfl, .inl ⟨hsize, htop.2⟩⟩
      · rintro ⟨_, rfl, _⟩
        exact .inl rfl
    · have hread : wordRead c s.mem (s.pc + 1#16) = .ok (s.mem.readWord (s.pc + 1#16)) := by
        refine wordRead_of_not_top ?_ s.mem
        cases hc : c.wordWrapAtTop with
        | wrap => exact .inl rfl
        | fault => exact .inr fun h => htop ⟨hc, (operand_at_top s.pc).mp h⟩
      simp only [hread, wordRead_error_iff, hm, hsize]
      tauto
  · rw [resolveAndHandle_error_of_ne_jmp hrow hm, hpc, wordRead_error_iff, operand_at_top]
    simp only [hm]
    tauto

/-- Settles O10: the only word reads of a step are the operand word and the jump pointer's. -/
theorem topWordFaultOnlyByParameter : Obligations.TopWordFaultOnlyByParameter := by
  refine ⟨fun c s addr => ?step, fun c m addr v => ⟨?top, fun h => ⟨wordRead_of_not_top h m, ?write⟩⟩⟩
  case step =>
    cases hrow : implementedRow c (s.byteAt s.pc) with
    | none =>
      rw [fsmStep_of_no_row hrow]
      refine ⟨fun h => (nomatch h), fun ⟨_, _, hmem, row, hdecode, _⟩ => ?_⟩
      exact nomatch hrow.symm.trans ((implementedRow_of_mem hmem).trans hdecode)
    | some row =>
      obtain ⟨hmem, hdecode⟩ := implementedRow_some hrow
      rw [fsmStep_of_row hrow, reportOf_eq_fault, resolveAndHandle_error_iff (decodeOpcode_some hdecode).1]
      simp [hmem, hdecode]
  case top =>
    rintro ⟨hfault, rfl⟩
    exact ⟨if_pos ⟨hfault, rfl⟩, if_pos ⟨hfault, rfl⟩⟩
  case write =>
    rcases wordWrite_cases c m addr v with ⟨hfault, htop, _⟩ | ⟨_, hok⟩
    · rcases h with hwrap | hne
      · exact nomatch hfault.symm.trans hwrap
      · exact absurd htop hne
    · exact hok

/-! ### Pointers at the end of a page -/

theorem zext16_succ {z : Byte} (h : z ≠ 0xFF) : zext16 (z + 1#8) = zext16 z + 1#16 := by
  have hz := toNat_zext16 z
  have hz' := toNat_zext16 (z + 1#8)
  bv_omega

/-- The next address within the page: one on, or back to the start of the page. -/
theorem next_within_page (ea : Addr) :
    joinBytes (loByte ea + 1#8) (hiByte ea) = if loByte ea = 0xFF then ea - 0xFF#16 else ea + 1#16 := by
  have hlow := toNat_loByte ea
  have hhigh := toNat_hiByte ea
  have hjoin := toNat_joinBytes (loByte ea + 1#8) (hiByte ea)
  split <;> bv_omega

theorem jumpTarget_true (m : Memory) (ea : Addr) :
    jumpTarget true m ea
      = joinBytes (m.readByte ea) (m.readByte (if loByte ea = 0xFF then ea - 0xFF#16 else ea + 1#16)) := by
  rw [jumpTarget, if_pos rfl, next_within_page]

theorem jumpTarget_false (m : Memory) (ea : Addr) :
    jumpTarget false m ea = joinBytes (m.readByte ea) (m.readByte (ea + 1#16)) := rfl

theorem jumpTarget_eq (wrap : Bool) (m : Memory) (ea : Addr) :
    jumpTarget wrap m ea = joinBytes (m.readByte ea)
      (m.readByte (if wrap = true ∧ loByte ea = 0xFF then ea - 0xFF#16 else ea + 1#16)) := by
  cases wrap with
  | false => simp [jumpTarget_false]
  | true => simp [jumpTarget_true]

/-- The step at an implemented JMP whose word reads are not at the top, or do not fault there. -/
theorem fsmStep_jmp {c : Config} {s : State} {row : OpcodeRow} (hrow : decodeOpcode (s.byteAt s.pc) = some row)
    (hm : row.mnemonic = .jmp) (hmem : s.byteAt s.pc ∈ c.implementedOpcodes)
    (hoperand : c.wordWrapAtTop = .wrap ∨ s.pc ≠ 0xFFFE)
    (hpointer : c.wordWrapAtTop = .wrap ∨ c.jmpIndPageWrap = true ∨ s.mem.readWord (s.pc + 1#16) ≠ 0xFFFF) :
    fsmStep c s = .ok row.base (jumpThrough c (s.mem.readWord (s.pc + 1#16)) (s.advance 3)) := by
  have hread : wordRead c (s.advance 1).mem (s.advance 1).pc = .ok (s.mem.readWord (s.pc + 1#16)) :=
    wordRead_of_not_top (hoperand.imp_right (mt (operand_at_top s.pc).mp)) s.mem
  rw [fsmStep_of_row ((implementedRow_of_mem hmem).trans hrow), resolveAndHandle_jmp (decodeOpcode_some hrow).1 hm,
    hread, State.advance_advance, Except.bind, jumpRead_of_not_top hpointer]
  rfl

/-- Settles O12: the two readings differ in the cell of the high byte alone, and only at the end of a page. -/
theorem pointerWrapParameters : Obligations.PointerWrapParameters := by
  refine ⟨fun m => ⟨fun z hz => ?zeroPage, rfl, rfl, fun ea h => ?jump, fun ea h => ⟨rfl, ?jumpWrap⟩⟩,
    fun c s row => ?step⟩
  case zeroPage => rw [zpPointer, if_pos rfl, zext16_succ hz]; rfl
  case jump => rw [jumpTarget_true, if_neg h, jumpTarget_false]
  case jumpWrap => rw [jumpTarget_true, if_pos h]
  case step =>
    intro pointer hrow hm hmem htop
    have hstep := fsmStep_jmp hrow hm hmem (htop.imp_right And.left) (htop.imp_right And.right)
    exact ⟨_, hstep, ⟨rfl, rfl, rfl, rfl, rfl⟩, rfl, fun _ => rfl, jumpTarget_eq c.jmpIndPageWrap s.mem pointer⟩

end Sys2Proof.Proofs
end
